-- ==== Sys2Proof/Word.lean ====
section
/-!
DEFINITION. The cell type of the Intcode core and the operand modes.

Every cell, operand, result and token is one signed two's-complement integer of 32 bits (R7); the machine has
no smaller unit (R41). Signed readings go through `BitVec.toInt`.
-/

namespace Sys2Proof

/-- One `i32`: a memory cell, an operand, a result, a port token (R7). -/
abbrev Word := BitVec 32

/-- The closed set of two parameter modes (R74): digit 0 is Position, digit 1 is Immediate. -/
inductive Mode where
  | position
  | immediate
  deriving DecidableEq, Repr

/-- The three mode digits the decoder always delivers (R73), one for each parameter slot, also for slots the
opcode does not have or does not resolve (R78, R81). -/
structure Modes where
  m1 : Mode
  m2 : Mode
  m3 : Mode
  deriving DecidableEq, Repr

end Sys2Proof
end

