-- ==== Sys2Proof/Machine/State.lean ====
section
/-!
DEFINITION. The state of the Intcode core (10_state.md), as plain data, the reasons a step can stop, and the
state after reset.

The architectural state is four things: `M` with its length `N`, `PC`, `RUN` and `CAUSE` (R26, R8, R21, R23,
R24). The two ports belong to the environment (R130, R137); the four fields after them hold the environment's
answers and log, so that a step is a function of one state (R109; log 3).
-/

namespace Sys2Proof.Machine

/-- `M` and its length `N` (R8, R26, R40). DESIGN CHOICE (log 1), safe: only the non-zero cells are listed, by
rising address; an address below `N` that is not listed holds 0, so every image of `N` cells has exactly one
such list. -/
structure Memory where
  /-- `N`, the number of cells, `0 .. 2147483647` (R8). -/
  size : Fin 2147483648
  /-- The cells that do not hold 0. -/
  cells : List (Nat × Word)
  deriving DecidableEq, Repr

/-- `RUN`, the run-state register (R23). -/
inductive RunState where
  | running
  | halted
  | faulted
  deriving DecidableEq, Repr

/-- The five fatal errors, a closed set (R180, R186). -/
inductive FatalError where
  | invalidOpcode
  | invalidParameterMode
  | outOfBounds
  | malformedInput
  | outputWriteFailure
  deriving DecidableEq, Repr

/-- `CAUSE`, the cause register (R24): `none` while no fault is recorded. -/
inductive Cause where
  | none
  | invalidOpcode
  | invalidParameterMode
  | outOfBounds
  | malformedInput
  | outputWriteFailure
  deriving DecidableEq, Repr

/-- One line the input port will deliver, at token level (R131): a parsed integer, or a line that is none. -/
inductive InputAnswer where
  | value (v : Word)
  | bad
  deriving DecidableEq, Repr

/-- The output sink's answer to one emission (R138). -/
inductive Verdict where
  | accepted
  | rejected
  deriving DecidableEq, Repr

/-- The machine and its two ports. -/
structure State where
  /-- `M` (R26). -/
  mem : Memory
  /-- `PC`, a cell address, 32 bits unsigned (R21). -/
  pc : BitVec 32
  /-- `RUN` (R23). -/
  run : RunState
  /-- `CAUSE` (R24). -/
  cause : Cause
  /-- The input port's answers not yet consumed, oldest first (R130). -/
  input : List InputAnswer
  /-- Whether the input stream has ended after those answers (R131). -/
  inputEnded : Bool
  /-- The output log, oldest token first (R137). -/
  output : List Word
  /-- The sink's coming verdicts, next first; when none is listed the sink accepts (R138, R142; log 3). -/
  verdicts : List Verdict
  deriving DecidableEq, Repr

/-- Why no step is taken. The five errors of the spec are none of these: they are taken, as next states (R188). The
answer carries no state, because none changes. -/
inductive Fault where
  /-- Raised by `step` alone, when `RUN` is not `RUNNING`: the run has ended and no further step exists (R23,
  R172, R190). DESIGN CHOICE (log 5). Safe: nothing can be proved of a step the machine does not take. -/
  | runEnded
  /-- Raised by `IN` when its destination is a cell, no answer has come and the stream is open: the core waits, which is
  the absence of a step, no fault and no halt (R134, D26; log 4). No state changes, and a step is there again once the
  host supplies a line or ends the stream. Safe: nothing can be proved of a step the machine does not take. -/
  | awaitingInput
  deriving DecidableEq, Repr

/-- Why an instruction has no meaning. -/
inductive Refusal where
  /-- Raised by an arm of `exec` for an instruction that has no meaning yet; no arm does. Safe: the machine stops. -/
  | notModelled (mnemonic : String)
  deriving DecidableEq, Repr

/-- The machine right after reset with nothing supplied by the host: `PC` 0, `RUNNING`, `CAUSE` none (R32, R200),
a memory of no cells (log 2) and unused ports (log 3). DESIGN CHOICE, unsafe: `N` and the ports are the host's to
supply (`construct` supplies them). -/
def State.reset : State where
  mem := ⟨⟨0, by decide⟩, []⟩
  pc := 0
  run := .running
  cause := .none
  input := []
  inputEnded := false
  output := []
  verdicts := []

end Sys2Proof.Machine
end

