-- ==== Sys2Proof/Machine/Flags.lean ====
section
/-!
DEFINITION. The integer laws of the ALU. The hardware has no flags (R33): what other machines keep in flags is
here a result word.
-/

namespace Sys2Proof.Machine

/-- R11, R122: the `i32` congruent to the exact result modulo 2^32. -/
def wrap32 (z : Int) : Word := BitVec.ofInt 32 z

/-- R122, R124: the exact sum, wrapped. -/
def sumWord (p1 p2 : Word) : Word := wrap32 (p1.toInt + p2.toInt)

/-- R122, R123: the exact product, wrapped. -/
def productWord (p1 p2 : Word) : Word := wrap32 (p1.toInt * p2.toInt)

/-- R162: a truth value is the word 1 or 0. -/
def truthWord (b : Bool) : Word := if b then 1#32 else 0#32

/-- R160, R162: signed and exact. -/
def lessWord (p1 p2 : Word) : Word := truthWord (p1.toInt < p2.toInt)

/-- R161, R162. -/
def equalWord (p1 p2 : Word) : Word := truthWord (p1.toInt = p2.toInt)

end Sys2Proof.Machine
end

