-- ==== Sys2Proof/Config.lean ====
section
/-!
DEFINITION. What is fixed for one implementation: the parameters of R8 and R9, and the lexical details of an
input line that R132 leaves to the port adapter.
-/

namespace Sys2Proof

/-- The largest legal memory length `N` (R8, D12). -/
def Config.maxLength : Nat := 2147483647

/-- The longest instruction, in cells (R70, R77). -/
def Config.longestInstruction : Nat := 4

/-- What R132 leaves to `ParseLine` (U19): each field says whether the port adapter accepts the form.
DESIGN CHOICE (log 6), safe: nothing in the model fixes any of them. -/
structure LineSyntax where
  /-- a leading `+` -/
  plusSign : Bool
  /-- leading zeros, as in `007` -/
  leadingZeros : Bool
  /-- blanks (space and tab) around the numeral -/
  blanks : Bool
  /-- one carriage return at the end of the line -/
  carriageReturn : Bool
  deriving DecidableEq, Repr, Inhabited

/-- The connected input port's line syntax: an implementation parameter, opaque, so that nothing can be proved
of it (R132, U19; log 6). -/
opaque Config.lineSyntax : LineSyntax

end Sys2Proof
end

