-- ==== Sys2Proof/Syntax.lean ====
section
/-!
DEFINITION. The nine instructions, one constructor for each row of spec/opcode_table.json (R76).

A constructor carries the three decoded mode digits and the raw parameter words of its format (R70). Raw words
are unconstrained (R84). All three digits are kept, because the decoder delivers and validates all three for
every opcode (R73, R81); a meaning uses only those of its source slots (R78).
-/

namespace Sys2Proof

/-- The Intcode instructions (R76). -/
inductive Instr where
  /-- `ADD`, opcode 1, format F4 (R120). -/
  | add (ms : Modes) (r1 r2 r3 : Word)
  /-- `MUL`, opcode 2, format F4 (R121). -/
  | mul (ms : Modes) (r1 r2 r3 : Word)
  /-- `IN`, opcode 3, format F2D: the source calls it Write (R135). -/
  | inp (ms : Modes) (r1 : Word)
  /-- `OUT`, opcode 4, format F2S (R140). -/
  | out (ms : Modes) (r1 : Word)
  /-- `JT`, opcode 5, format F3 (R150). -/
  | jt (ms : Modes) (r1 r2 : Word)
  /-- `JF`, opcode 6, format F3 (R151). -/
  | jf (ms : Modes) (r1 r2 : Word)
  /-- `LT`, opcode 7, format F4 (R160). -/
  | lt (ms : Modes) (r1 r2 r3 : Word)
  /-- `EQ`, opcode 8, format F4 (R161). -/
  | eq (ms : Modes) (r1 r2 r3 : Word)
  /-- `HLT`, opcode 99, format F1 (R170). -/
  | hlt (ms : Modes)
  deriving DecidableEq, Repr

end Sys2Proof
end

