-- ==== Sys2Proof/WellFormed.lean ====
section
/-!
DEFINITION. The checks an instruction word must pass, on the fields R73 extracts: a known opcode (R79) and
three mode digits that are 0 or 1 (R80, R81). Parameter words have no check (R84).
-/

namespace Sys2Proof

/-- The four fields of an instruction word, as the decimal numbers they are (R71, R73). -/
structure Digits where
  opcode : Nat
  m1 : Nat
  m2 : Nat
  m3 : Nat
  deriving DecidableEq, Repr

/-- The nine opcode numbers, a closed set (R76, R79). -/
def knownOpcodes : List Nat := [1, 2, 3, 4, 5, 6, 7, 8, 99]

/-- R79: the opcode is one of the nine. -/
def Digits.opcodeKnown (d : Digits) : Bool := knownOpcodes.contains d.opcode

/-- R80, R81: all three digits are 0 or 1, whatever the opcode. -/
def Digits.modesLegal (d : Digits) : Bool := d.m1 < 2 && d.m2 < 2 && d.m3 < 2

/-- A legal encoding (R83). -/
def Digits.wellFormed (d : Digits) : Bool := d.opcodeKnown && d.modesLegal

/-- The digit a mode is written as (R74). -/
def Mode.digit : Mode → Nat
  | .position => 0
  | .immediate => 1

/-- The opcode number of an instruction (R76). -/
def Instr.opcodeNumber : Instr → Nat
  | .add _ _ _ _ => 1
  | .mul _ _ _ _ => 2
  | .inp _ _ => 3
  | .out _ _ => 4
  | .jt _ _ _ => 5
  | .jf _ _ _ => 6
  | .lt _ _ _ _ => 7
  | .eq _ _ _ _ => 8
  | .hlt _ => 99

/-- The three mode digits of an instruction (R73). -/
def Instr.modes : Instr → Modes
  | .add ms _ _ _ => ms
  | .mul ms _ _ _ => ms
  | .inp ms _ => ms
  | .out ms _ => ms
  | .jt ms _ _ => ms
  | .jf ms _ _ => ms
  | .lt ms _ _ _ => ms
  | .eq ms _ _ _ => ms
  | .hlt ms => ms

/-- The parameter words of an instruction, in order (R70). -/
def Instr.params : Instr → List Word
  | .add _ r1 r2 r3 => [r1, r2, r3]
  | .mul _ r1 r2 r3 => [r1, r2, r3]
  | .inp _ r1 => [r1]
  | .out _ r1 => [r1]
  | .jt _ r1 r2 => [r1, r2]
  | .jf _ r1 r2 => [r1, r2]
  | .lt _ r1 r2 r3 => [r1, r2, r3]
  | .eq _ r1 r2 r3 => [r1, r2, r3]
  | .hlt _ => []

/-- The fields an instruction's word is written from. -/
def Instr.digits (i : Instr) : Digits :=
  ⟨i.opcodeNumber, i.modes.m1.digit, i.modes.m2.digit, i.modes.m3.digit⟩

/-- An instruction is well formed when the fields of its word pass the decoder's checks. -/
def Instr.wellFormed (i : Instr) : Bool := i.digits.wellFormed

end Sys2Proof
end

