-- ==== Sys2Proof/Decode.lean ====
section
/-!
DEFINITION. The decoder (30_encoding.md), total on any cells, refusing by name, and after it the encoder.

Fields are decimal digits of the instruction word, not bit fields (R71).
-/

namespace Sys2Proof

/-- Why cells are no instruction. The first two are the decoder's own failures (R79, R80); the third says that a
parameter word is missing (R104). -/
inductive DecodeError where
  | invalidOpcode
  | invalidParameterMode
  | missingWord
  deriving DecidableEq, Repr

/-- The opcode variant of a decoded word (R73, R76). -/
inductive Opcode where
  | add | mul | inp | out | jt | jf | lt | eq | hlt
  deriving DecidableEq, Repr

/-- R10: digit `k` of a non-negative number, position 0 being the units. -/
def decimalDigit (w k : Nat) : Nat := w / 10 ^ k % 10

/-- R73: the four fields of a non-negative instruction word. Digits above the ten-thousands place are not
examined (R75). -/
def extractDigits (w : Nat) : Digits :=
  ⟨w % 100, decimalDigit w 2, decimalDigit w 3, decimalDigit w 4⟩

/-- The opcode map (R76). -/
def opcodeOfNumber : Nat → Option Opcode
  | 1 => some .add
  | 2 => some .mul
  | 3 => some .inp
  | 4 => some .out
  | 5 => some .jt
  | 6 => some .jf
  | 7 => some .lt
  | 8 => some .eq
  | 99 => some .hlt
  | _ => none

/-- The mode a digit selects (R74); any other digit is refused (R80). -/
def modeOfDigit : Nat → Option Mode
  | 0 => some .position
  | 1 => some .immediate
  | _ => none

/-- R77: the size of an instruction in cells, fixed by its opcode. -/
def opcodeSize : Opcode → Nat
  | .add => 4
  | .mul => 4
  | .inp => 2
  | .out => 2
  | .jt => 3
  | .jf => 3
  | .lt => 4
  | .eq => 4
  | .hlt => 1

/-- All three digits must be modes, for every opcode (R80, R81). -/
def modesOfDigits (d : Digits) : Option Modes :=
  match modeOfDigit d.m1, modeOfDigit d.m2, modeOfDigit d.m3 with
  | some m1, some m2, some m3 => some ⟨m1, m2, m3⟩
  | _, _, _ => none

/-- The decoder proper (R72, R73, R79, R80): the opcode is checked first, the digits second (R82). -/
def decodeWord (w : Word) : Except DecodeError (Opcode × Modes) :=
  if w.toInt < 0 then .error .invalidOpcode
  else
    let d := extractDigits w.toNat
    match opcodeOfNumber d.opcode with
    | none => .error .invalidOpcode
    | some op =>
      match modesOfDigits d with
      | none => .error .invalidParameterMode
      | some ms => .ok (op, ms)

/-- The instruction of a decoded word and the parameter words that follow it (R70); words beyond the opcode's
size are left alone. -/
def buildInstr (op : Opcode) (ms : Modes) (ps : List Word) : Option Instr :=
  match op, ps with
  | .add, r1 :: r2 :: r3 :: _ => some (.add ms r1 r2 r3)
  | .mul, r1 :: r2 :: r3 :: _ => some (.mul ms r1 r2 r3)
  | .inp, r1 :: _ => some (.inp ms r1)
  | .out, r1 :: _ => some (.out ms r1)
  | .jt, r1 :: r2 :: _ => some (.jt ms r1 r2)
  | .jf, r1 :: r2 :: _ => some (.jf ms r1 r2)
  | .lt, r1 :: r2 :: r3 :: _ => some (.lt ms r1 r2 r3)
  | .eq, r1 :: r2 :: r3 :: _ => some (.eq ms r1 r2 r3)
  | .hlt, _ => some (.hlt ms)
  | _, _ => none

/-- The instruction that begins a list of consecutive cells. A decode failure is reported before any missing
parameter word (R103). -/
def decode : List Word → Except DecodeError Instr
  | [] => .error .missingWord
  | w :: ps =>
    match decodeWord w with
    | .error e => .error e
    | .ok (op, ms) =>
      match buildInstr op ms ps with
      | none => .error .missingWord
      | some i => .ok i

/-- The instruction word written from its fields; no digit stands above the ten-thousands place (R71). -/
def wordOfDigits (d : Digits) : Word :=
  BitVec.ofNat 32 (d.m3 * 10000 + d.m2 * 1000 + d.m1 * 100 + d.opcode)

/-- The cells of an instruction: its word, then its parameter words (R70). -/
def encode (i : Instr) : List Word := wordOfDigits i.digits :: i.params

/-- The size of an instruction in cells (R77). -/
def Instr.size (i : Instr) : Nat := i.params.length + 1

/-- Cell `k` of an instruction whose bits are `w`, in the opcode table's numbering: a cell is 32 bits, bit 0 is
the least significant bit of the first cell, and every bit from `nbits` up is 0 (log 8). -/
def tableCell (nbits w k : Nat) : Word := BitVec.ofNat 32 (w % 2 ^ nbits / 2 ^ (32 * k))

/-- The four cells such an instruction may occupy. -/
def tableCells (nbits w : Nat) : List Word :=
  [tableCell nbits w 0, tableCell nbits w 1, tableCell nbits w 2, tableCell nbits w 3]

/-- What the decoder reads from an instruction whose bits are `w`. -/
def decodeTableWord (nbits w : Nat) : Option Instr :=
  match decode (tableCells nbits w) with
  | .ok i => some i
  | .error _ => none

end Sys2Proof
end

