-- ==== Sys2Proof/Machine/Ops.lean ====
section
/-!
DEFINITION. The named operations over memory, registers and ports: bounds-checked access (R43, R44), taking a
fatal error (R188), the writes of `PC` (R107), the two port transactions (R131, R138), and fetching an
instruction (R102 to R104). The spec has no return from an error (R190), so there is none here.
-/

namespace Sys2Proof.Machine

/-! ### The memory `M` -/

/-- The cell at an address of the memory: 0 when it is not listed. -/
def lookupCell : List (Nat × Word) → Nat → Word
  | [], _ => 0#32
  | (k, v) :: rest, a => if k = a then v else lookupCell rest a

/-- The listing with an address left out. -/
def eraseCell : List (Nat × Word) → Nat → List (Nat × Word)
  | [], _ => []
  | (k, v) :: rest, a => if k = a then eraseCell rest a else (k, v) :: eraseCell rest a

/-- The listing with one more cell, before the first higher address. -/
def insertCell : List (Nat × Word) → Nat → Word → List (Nat × Word)
  | [], a, v => [(a, v)]
  | (k, u) :: rest, a, v => if a < k then (a, v) :: (k, u) :: rest else (k, u) :: insertCell rest a v

/-- The listing after a write: a cell that becomes 0 is no longer listed. -/
def putCell (cs : List (Nat × Word)) (a : Nat) (v : Word) : List (Nat × Word) :=
  if v = 0#32 then eraseCell cs a else insertCell (eraseCell cs a) a v

/-- Addresses rise strictly from `lo`, end below `hi`, and no cell holds 0. -/
def cellsOrdered (hi : Nat) : Nat → List (Nat × Word) → Bool
  | _, [] => true
  | lo, (k, v) :: rest => decide (lo ≤ k) && decide (k < hi) && decide (v ≠ 0#32) && cellsOrdered hi (k + 1) rest

/-- The canonical form of a memory (log 1). -/
def Memory.wf (m : Memory) : Bool := cellsOrdered m.size.val 0 m.cells

/-- `M[a]`. -/
def Memory.read (m : Memory) (a : Nat) : Word := lookupCell m.cells a

/-- `M[a] <- v`; the length stays (R44). -/
def Memory.write (m : Memory) (a : Nat) (v : Word) : Memory := { m with cells := putCell m.cells a v }

/-- The range check of every access (R43, R44): the cell an address names, if there is one. -/
def cellIndex (s : State) (a : Int) : Option Nat :=
  if 0 ≤ a ∧ a < (s.mem.size.val : Int) then some a.toNat else none

/-- `MemRead(a, 1)` (R43): `none` is `OutOfBounds`. -/
def memRead (s : State) (a : Int) : Option Word :=
  match cellIndex s a with
  | none => none
  | some k => some (s.mem.read k)

/-- The state after a write of an existing cell. -/
def State.setCell (s : State) (k : Nat) (v : Word) : State := { s with mem := s.mem.write k v }

/-- `MemWrite(a, 1, v)` (R44): `none` is `OutOfBounds`, and nothing is written. -/
def memWrite (s : State) (a : Int) (v : Word) : Option State :=
  match cellIndex s a with
  | none => none
  | some k => some (s.setCell k v)

/-! ### `PC`, `RUN`, `CAUSE` -/

/-- The cause a fatal error records (R24, R180). -/
def FatalError.toCause : FatalError → Cause
  | .invalidOpcode => .invalidOpcode
  | .invalidParameterMode => .invalidParameterMode
  | .outOfBounds => .outOfBounds
  | .malformedInput => .malformedInput
  | .outputWriteFailure => .outputWriteFailure

/-- Taking a fatal error (R188): `RUN` and `CAUSE` are written and nothing else. -/
def State.raise (s : State) (e : FatalError) : State := { s with run := .faulted, cause := e.toCause }

/-- The fixed-size advance (R107), by the size decoded before any write (R108). -/
def State.advance (s : State) (n : Nat) : State := { s with pc := s.pc + BitVec.ofNat 32 n }

/-- `PC <- t` of a taken jump (R152): absolute, not clamped. -/
def State.jump (s : State) (t : Word) : State := { s with pc := t }

/-- `RUN <- HALTED` (R170, R171). -/
def State.halt (s : State) : State := { s with run := .halted }

/-- The loop-head test (R101): `PC` is at or past the end of memory. -/
def atEnd (s : State) : Bool := decide (s.mem.size.val ≤ s.pc.toNat)

/-- Whether a step is defined (R100). -/
def isRunning (s : State) : Bool := decide (s.run = .running)

/-! ### The ports -/

/-- The four courses of one input request (R131). -/
inductive InputCourse where
  | value (v : Word)
  | bad
  | ended
  | waiting
  deriving DecidableEq, Repr

/-- `InputRequest()` (R131): the next answer is consumed, a bad line too; with none left, the stream has ended or
the core waits (R134). -/
def inputRequest (s : State) : InputCourse × State :=
  match s.input with
  | .value v :: rest => (.value v, { s with input := rest })
  | .bad :: rest => (.bad, { s with input := rest })
  | [] => if s.inputEnded then (.ended, s) else (.waiting, s)

/-- The sink's verdict on the next emission (R138); it accepts when none is listed (log 3). -/
def nextVerdict (s : State) : Verdict :=
  match s.verdicts with
  | [] => .accepted
  | d :: _ => d

/-- `OutputEmit(v)` (R138): the verdict is used up, and an accepted token joins the log. -/
def outputEmit (s : State) (v : Word) : Verdict × State :=
  match nextVerdict s with
  | .accepted => (.accepted, { s with output := s.output ++ [v], verdicts := s.verdicts.tail })
  | .rejected => (.rejected, { s with verdicts := s.verdicts.tail })

/-! ### Fetch -/

/-- The fatal error a decode failure raises (R103); a missing parameter word is `OutOfBounds` (R104). -/
def DecodeError.toFatal : DecodeError → FatalError
  | .invalidOpcode => .invalidOpcode
  | .invalidParameterMode => .invalidParameterMode
  | .missingWord => .outOfBounds

/-- `n` consecutive cells from address `a`, ascending (R104): `none` as soon as one does not exist. -/
def readCells (s : State) (a : Nat) : Nat → Option (List Word)
  | 0 => some []
  | n + 1 =>
    match memRead s (a : Int) with
    | none => none
    | some w =>
      match readCells s (a + 1) n with
      | none => none
      | some ws => some (w :: ws)

/-- Fetch and decode (R102 to R104): the word at `PC`, its decoding, then all its parameter words. -/
def fetchInstr (s : State) : Except FatalError Instr :=
  match memRead s (s.pc.toNat : Int) with
  | none => .error .outOfBounds
  | some w =>
    match decodeWord w with
    | .error e => .error (DecodeError.toFatal e)
    | .ok (op, ms) =>
      match readCells s (s.pc.toNat + 1) (opcodeSize op - 1) with
      | none => .error .outOfBounds
      | some ps =>
        match buildInstr op ms ps with
        | none => .error .outOfBounds
        | some i => .ok i

/-! ### Placing a program from outside (log 2) -/

/-- The memory made at least `n` cells long by its supplier; new cells hold 0. Only the host can do this, before a
run (R5, R8). -/
def Memory.extendTo (m : Memory) (n : Nat) : Memory :=
  if m.size.val < n then
    if h : n < 2147483648 then { m with size := ⟨n, h⟩ } else m
  else m

/-- The cells written one after another from address `a`. -/
def Memory.writeAll (m : Memory) (a : Nat) : List Word → Memory
  | [] => m
  | w :: ws => Memory.writeAll (m.write a w) (a + 1) ws

/-- Where cells can be placed for the next fetch: at `PC`, or at 0 when the longest instruction does not fit
there. -/
def placementAddress (s : State) : Nat :=
  if s.pc.toNat + Config.longestInstruction ≤ Config.maxLength then s.pc.toNat else 0

/-- The state whose next fetch reads the given cells: the memory holds them (and is long enough), and the machine
is running. -/
def State.place (s : State) (ws : List Word) : State :=
  let a := placementAddress s
  { s with
    mem := (s.mem.extendTo (a + ws.length)).writeAll a ws
    pc := BitVec.ofNat 32 a
    run := .running
    cause := .none }

end Sys2Proof.Machine
end

