-- ==== Sys2Proof/Machine/Operands.lean ====
section
/-!
DEFINITION. The operand forms (20_memory.md, 30_encoding.md R70): resolving sources, the raw destination, and the
execution shapes of the formats F4 (two sources, a destination) and F3 (two sources, a jump).
-/

namespace Sys2Proof.Machine

/-- The one type of answers a meaning gives. -/
abbrev StepOutcome := Host.Outcome State Fault Refusal

/-- The parameter resolver (R46): Immediate gives the raw word, Position the cell it names. `none` is
`OutOfBounds` (R47). -/
def resolve (s : State) (m : Mode) (r : Word) : Option Word :=
  match m with
  | .immediate => some r
  | .position => memRead s r.toInt

/-- The destination (R48): the raw word, range checked (R105), whatever its mode digit (R49). -/
def destination (s : State) (r : Word) : Option Nat := cellIndex s r.toInt

/-- A fatal error, taken (R188). -/
def raised (s : State) (e : FatalError) : StepOutcome := .next (s.raise e)

/-- The two sources, in order, each resolved whether or not it is used (R105). -/
def resolveTwo (s : State) (ms : Modes) (r1 r2 : Word) : Option (Word × Word) :=
  match resolve s ms.m1 r1 with
  | none => none
  | some p1 =>
    match resolve s ms.m2 r2 with
    | none => none
    | some p2 => some (p1, p2)

/-- Format F4 (R57, R105, R107): both sources, the range check, the one write, the advance by 4. -/
def storeResult (f : Word → Word → Word) (ms : Modes) (r1 r2 r3 : Word) (s : State) : StepOutcome :=
  match resolveTwo s ms r1 r2 with
  | none => raised s .outOfBounds
  | some (p1, p2) =>
    match destination s r3 with
    | none => raised s .outOfBounds
    | some k => .next ((s.setCell k (f p1 p2)).advance 4)

/-- Format F3 (R150 to R152): both sources, then a jump to `p2` when the condition on `p1` holds (a negative target
is `OutOfBounds`), and otherwise the advance by 3. -/
def jumpWhen (cond : Word → Bool) (ms : Modes) (r1 r2 : Word) (s : State) : StepOutcome :=
  match resolveTwo s ms r1 r2 with
  | none => raised s .outOfBounds
  | some (p1, p2) =>
    if cond p1 then
      if p2.toInt < 0 then raised s .outOfBounds else .next (s.jump p2)
    else .next (s.advance 3)

end Sys2Proof.Machine
end

