-- ==== Sys2Proof/Machine/Arithmetic.lean ====
section
/-! DEFINITION. The arithmetic instructions (41_arithmetic.md). -/

namespace Sys2Proof.Machine

/-- `ADD` (R120): `M[r3] <- wrap32(p1 + p2)`. -/
def execAdd (ms : Modes) (r1 r2 r3 : Word) (s : State) : StepOutcome := storeResult sumWord ms r1 r2 r3 s

/-- `MUL` (R121): `M[r3] <- wrap32(p1 * p2)`. -/
def execMul (ms : Modes) (r1 r2 r3 : Word) (s : State) : StepOutcome := storeResult productWord ms r1 r2 r3 s

end Sys2Proof.Machine
end

