-- ==== Sys2Proof/Machine/Compare.lean ====
section
/-! DEFINITION. The comparison instructions (44_compare.md). -/

namespace Sys2Proof.Machine

/-- `LT` (R160): `M[r3] <- 1` if `p1 < p2` as signed integers, else 0. -/
def execLt (ms : Modes) (r1 r2 r3 : Word) (s : State) : StepOutcome := storeResult lessWord ms r1 r2 r3 s

/-- `EQ` (R161): `M[r3] <- 1` if `p1 = p2`, else 0. -/
def execEq (ms : Modes) (r1 r2 r3 : Word) (s : State) : StepOutcome := storeResult equalWord ms r1 r2 r3 s

end Sys2Proof.Machine
end

