-- ==== Sys2Proof/Machine/Halt.lean ====
section
/-! DEFINITION. Halt and the end of a run (45_halt.md). -/

namespace Sys2Proof.Machine

/-- `HLT` (R170): `PC + 1`, then `RUN <- HALTED`. No mode digit has an effect (R78). -/
def execHlt (_ms : Modes) (s : State) : StepOutcome := .next (s.advance 1).halt

/-- The implicit halt at the loop head (R101, R171): `RUN <- HALTED` and nothing else. -/
def implicitHalt (s : State) : StepOutcome := .next s.halt

end Sys2Proof.Machine
end

