-- ==== Sys2Proof/Machine/Jump.lean ====
section
/-! DEFINITION. The control-transfer instructions (43_jump.md). -/

namespace Sys2Proof.Machine

/-- `JT` (R150): jump when `p1` is not zero. -/
def execJt (ms : Modes) (r1 r2 : Word) (s : State) : StepOutcome :=
  jumpWhen (fun p1 => decide (p1.toInt ≠ 0)) ms r1 r2 s

/-- `JF` (R151): jump when `p1` is zero. -/
def execJf (ms : Modes) (r1 r2 : Word) (s : State) : StepOutcome :=
  jumpWhen (fun p1 => decide (p1.toInt = 0)) ms r1 r2 s

end Sys2Proof.Machine
end

