-- ==== Sys2Proof/Machine/PortIo.lean ====
section
/-! DEFINITION. The port instructions (42_io.md). -/

namespace Sys2Proof.Machine

/-- `IN` (R135): the destination is checked before the request (R136), so a bad one touches no port. A bad line is
consumed and faults, an ended stream faults. With no answer yet the core waits, and there is no step (R134, D26; log 4).
No mode digit has an effect (R78). -/
def execIn (_ms : Modes) (r1 : Word) (s : State) : StepOutcome :=
  match destination s r1 with
  | none => raised s .outOfBounds
  | some k =>
    match inputRequest s with
    | (.value v, s') => .next ((s'.setCell k v).advance 2)
    | (.bad, s') => raised s' .malformedInput
    | (.ended, s') => raised s' .malformedInput
    | (.waiting, _) => .fault .awaitingInput

/-- `OUT` (R140): its source is resolved through `m1` like any other (C1, D28); memory is never written. -/
def execOut (ms : Modes) (r1 : Word) (s : State) : StepOutcome :=
  match resolve s ms.m1 r1 with
  | none => raised s .outOfBounds
  | some p1 =>
    match outputEmit s p1 with
    | (.accepted, s') => .next (s'.advance 2)
    | (.rejected, s') => raised s' .outputWriteFailure

end Sys2Proof.Machine
end

