-- ==== Sys2Proof/Machine/Dispatch.lean ====
section
/-! DEFINITION. Dispatch (R106): one arm for each of the nine instructions. -/

namespace Sys2Proof.Machine

def exec (i : Instr) (s : State) : Host.Outcome State Fault Refusal :=
  match i with
  | .add ms r1 r2 r3 => Sys2Proof.Machine.execAdd ms r1 r2 r3 s
  | .mul ms r1 r2 r3 => Sys2Proof.Machine.execMul ms r1 r2 r3 s
  | .inp ms r1 => Sys2Proof.Machine.execIn ms r1 s
  | .out ms r1 => Sys2Proof.Machine.execOut ms r1 s
  | .jt ms r1 r2 => Sys2Proof.Machine.execJt ms r1 r2 s
  | .jf ms r1 r2 => Sys2Proof.Machine.execJf ms r1 r2 s
  | .lt ms r1 r2 r3 => Sys2Proof.Machine.execLt ms r1 r2 r3 s
  | .eq ms r1 r2 r3 => Sys2Proof.Machine.execEq ms r1 r2 r3 s
  | .hlt ms => Sys2Proof.Machine.execHlt ms s

end Sys2Proof.Machine
end

