-- ==== Sys2Proof/Machine/Step.lean ====
section
/-! DEFINITION. The execute loop's step (40_execute_loop.md, R100), and the placing of one instruction for it. -/

namespace Sys2Proof.Machine

/-- One step (R100): nothing when the run has ended (R23); the implicit halt at the loop head (R101); otherwise
fetch and decode (R102 to R104), whose failure is taken as its fatal error, and the instruction's meaning. -/
def step (s : State) : Host.Outcome State Fault Refusal :=
  if isRunning s then
    if atEnd s then implicitHalt s
    else
      match fetchInstr s with
      | .error e => raised s e
      | .ok i => exec i s
  else .fault .runEnded

/-- The state whose next step fetches the instruction with these bits (log 2). -/
def State.withFetchWord (s : State) (nbits w : Nat) : State := s.place (tableCells nbits w)

end Sys2Proof.Machine
end

