-- ==== Sys2Proof/Machine/PortText.lean ====
section
/-!
DEFINITION. The text side of the ports: the output numeral and line (R139), and `ParseLine`, the reading of one
input line (R132, R133), for the line syntax a port adapter has. The core itself works on tokens; these functions
belong to the adapter (D14, D15).
-/

namespace Sys2Proof.Machine

/-- The character of a decimal digit. -/
def digitChar (d : Nat) : Char := Char.ofNat (48 + d)

/-- The value of a digit character, if it is one. -/
def digitValue (c : Char) : Option Nat := if 48 ≤ c.toNat ∧ c.toNat ≤ 57 then some (c.toNat - 48) else none

/-- The decimal digits of a number below `10 ^ fuel`, most significant first, no leading zero. -/
def decimalDigits : Nat → Nat → List Char
  | 0, _ => []
  | fuel + 1, n => if n < 10 then [digitChar n] else decimalDigits fuel (n / 10) ++ [digitChar (n % 10)]

/-- The canonical numeral of a token (R139). The magnitude of an `i32` has at most ten digits. -/
def canonicalNumeral (v : Word) : List Char :=
  if v.toInt < 0 then '-' :: decimalDigits 10 v.toInt.natAbs else decimalDigits 10 v.toInt.natAbs

/-- One output line: the numeral and a line feed (R139). -/
def outputLine (v : Word) : List Char := canonicalNumeral v ++ ['\n']

/-- The output stream's text: one line per token, in the order of the log (R139, R141). -/
def outputText : List Word → List Char
  | [] => []
  | v :: vs => outputLine v ++ outputText vs

/-- The number a list of digit characters denotes, read on from `acc`; `none` if one is no digit. -/
def readDigits (acc : Nat) : List Char → Option Nat
  | [] => some acc
  | c :: cs =>
    match digitValue c with
    | none => none
    | some d => readDigits (acc * 10 + d) cs

/-- The number of a non-empty digit string. -/
def readMagnitude : List Char → Option Nat
  | [] => none
  | c :: cs => readDigits 0 (c :: cs)

/-- A zero in front of further characters. -/
def hasLeadingZero : List Char → Bool
  | '0' :: _ :: _ => true
  | _ => false

/-- R133: a value outside the `i32` range is `Bad`, never wrapped. -/
def answerOfInt (z : Int) : InputAnswer :=
  if -2147483648 ≤ z ∧ z ≤ 2147483647 then .value (wrap32 z) else .bad

/-- The answer for the digits after a sign (R132). -/
def answerOfDigits (syn : LineSyntax) (negative : Bool) (ds : List Char) : InputAnswer :=
  match readMagnitude ds with
  | none => .bad
  | some n =>
    if hasLeadingZero ds && !syn.leadingZeros then .bad
    else answerOfInt (if negative then -(n : Int) else (n : Int))

/-- The blanks an adapter may ignore around a numeral: space and tab (log 6). -/
def isBlank (c : Char) : Bool := c == ' ' || c == '\t'

/-- The line without leading blanks. -/
def dropBlanks : List Char → List Char
  | [] => []
  | c :: cs => if isBlank c then dropBlanks cs else c :: cs

/-- The line without one carriage return at its end. -/
def dropFinalReturn : List Char → List Char
  | [] => []
  | [c] => if c == '\r' then [] else [c]
  | c :: cs => c :: dropFinalReturn cs

/-- The line without what the adapter chooses to ignore (R132 b). -/
def strippedLine (syn : LineSyntax) (line : List Char) : List Char :=
  let l := if syn.carriageReturn then dropFinalReturn line else line
  if syn.blanks then (dropBlanks (dropBlanks l).reverse).reverse else l

/-- `ParseLine` (R132): a line, its terminator removed, as a base-10 signed integer. -/
def parseLine (syn : LineSyntax) (line : List Char) : InputAnswer :=
  match strippedLine syn line with
  | '-' :: ds => answerOfDigits syn true ds
  | '+' :: ds => if syn.plusSign then answerOfDigits syn false ds else .bad
  | ds => answerOfDigits syn false ds

end Sys2Proof.Machine
end

