-- ==== Sys2Proof/Machine/HostInterface.lean ====
section
/-!
DEFINITION. The host's side of the interface (R31, R200, R203 to R206): building a machine over an image and two
ports, reset, answering ports between steps, reading status and result. None of it is part of a step, and the host
has no other move: it cannot stop, pause or redirect a run (R31 d, R204).
-/

namespace Sys2Proof.Machine

/-- Reset (R200): `PC`, `RUN` and `CAUSE`, and nothing else; memory and ports stay as they are (D20). -/
def State.applyReset (s : State) : State := { s with pc := 0, run := .running, cause := .none }

/-- The memory whose cell `k` is the `k`-th word of an image (R85, R203); `none` above the largest length (U27). -/
def Memory.ofImage (image : List Word) : Option Memory :=
  if h : image.length < 2147483648 then
    some (Memory.writeAll ⟨⟨image.length, h⟩, []⟩ 0 image)
  else none

/-- Construction (R31 a, R203): an image, an input port (its answers, and whether the stream ends after them) and
an output port (its verdicts), then reset. -/
def construct (image : List Word) (answers : List InputAnswer) (ended : Bool) (verdicts : List Verdict) :
    Option State :=
  match Memory.ofImage image with
  | none => none
  | some m =>
    some { mem := m, pc := 0, run := .running, cause := .none, input := answers, inputEnded := ended
           output := [], verdicts := verdicts }

/-- The environment supplies one more line, at token level (R131, R204); a stream that has ended has none (log 6). -/
def State.supplyAnswer (s : State) (a : InputAnswer) : State :=
  if s.inputEnded then s else { s with input := s.input ++ [a] }

/-- The environment supplies one line of text, its terminator removed, read by the adapter's `ParseLine` (R132). -/
def State.supplyLine (s : State) (line : List Char) : State := s.supplyAnswer (parseLine Config.lineSyntax line)

/-- The environment ends the input stream (R131, R204). -/
def State.endInput (s : State) : State := { s with inputEnded := true }

/-- The output stream as text (R139). -/
def State.outputStream (s : State) : List Char := outputText s.output

/-- `RUN` as the number a host reads (R23, D10). -/
def RunState.code : RunState → Nat
  | .running => 0
  | .halted => 1
  | .faulted => 2

/-- `CAUSE` as the number a host reads (R24, D10). -/
def Cause.code : Cause → Nat
  | .none => 0
  | .invalidOpcode => 1
  | .invalidParameterMode => 2
  | .outOfBounds => 3
  | .malformedInput => 4
  | .outputWriteFailure => 5

/-- The host's reading of a cell (R31 c, e; R205): none while the run lasts, none at an address that is no cell. -/
def hostRead (s : State) (a : Nat) : Option Word := if isRunning s then none else memRead s (a : Int)

end Sys2Proof.Machine
end

