-- ==== Sys2Proof/Safety.lean ====
section
/-!
DEFINITION. What counts as a sound state and as the end of a run, in the terms statements use.
-/

namespace Sys2Proof.Machine

/-- The invariant of the machine: the memory is canonical (log 1), `PC` is in its range (R21), and `CAUSE` records a
fault exactly in `FAULTED` (R24). -/
def State.Inv (s : State) : Prop :=
  s.mem.wf = true ∧ s.pc.toNat ≤ 2147483647 ∧ (s.cause = .none ↔ s.run ≠ .faulted)

/-- The run has ended cleanly (R172). -/
def State.EndedCleanly (s : State) : Prop := s.run = .halted

/-- The run has ended in a fault (R172). -/
def State.EndedInFault (s : State) : Prop := s.run = .faulted

/-- The next instruction is an `IN` whose answer has not come (R134): its destination is a cell, no answer is
queued, and the stream has not ended. -/
def State.Waiting (s : State) : Prop :=
  s.run = .running ∧ s.pc.toNat < s.mem.size.val ∧ s.input = [] ∧ s.inputEnded = false ∧
    ∃ ms r1, fetchInstr s = .ok (.inp ms r1) ∧ 0 ≤ r1.toInt ∧ r1.toInt < (s.mem.size.val : Int)

end Sys2Proof.Machine
end

