-- ==== Sys2Proof/Certificates/Slice0/Obligations.lean ====
section
/-!
DEFINITION. The statements for the provers. Each docstring names the rules of spec/ it formalises. The first part is
the vocabulary they share, written from the spec's own words and not from the meanings.
-/

namespace Sys2Proof.Claims

open Sys2Proof.Machine

/-- The nine opcode numbers (R79). -/
def opcodes : List Nat := [1, 2, 3, 4, 5, 6, 7, 8, 99]

/-- The size in cells of an opcode (R77). -/
def cellsOf (opcode : Nat) : Nat :=
  if opcode = 99 then 1
  else if opcode = 3 ∨ opcode = 4 then 2
  else if opcode = 5 ∨ opcode = 6 then 3
  else 4

/-- A mode digit of the word is 2 to 9 (R80), in whichever slot (R81). -/
def BadDigit (w : Word) : Prop := ∃ k, k ∈ [2, 3, 4] ∧ 2 ≤ w.toNat / 10 ^ k % 10

/-- No cell has this address (R43, R44). -/
def Outside (s : State) (a : Int) : Prop := a < 0 ∨ (s.mem.size.val : Int) ≤ a

/-- The word is the result: congruent to the exact integer modulo 2^32 (R11, R122). -/
def WrapsTo (v : Word) (z : Int) : Prop := (4294967296 : Int) ∣ v.toInt - z

/-- What a source operand denotes (R46): the raw word, or the content of the cell it names. -/
def Source (s : State) (m : Mode) (r p : Word) : Prop :=
  match m with
  | .immediate => p = r
  | .position => ∃ k : Nat, k < s.mem.size.val ∧ r.toInt = (k : Int) ∧ p = s.mem.read k

/-- The error is taken: `RUN` and `CAUSE` are written and nothing else is (R188). -/
def faulted (s : State) (c : Cause) : State := { s with run := .faulted, cause := c }

/-- Both ports are as they were. -/
def PortsSame (s t : State) : Prop :=
  t.input = s.input ∧ t.inputEnded = s.inputEnded ∧ t.output = s.output ∧ t.verdicts = s.verdicts

/-- `RUN` and `CAUSE` are as they were. -/
def StatusSame (s t : State) : Prop := t.run = s.run ∧ t.cause = s.cause

/-- Every address but one reads as before, and the length is as before. -/
def CellsSameBut (s t : State) (a : Int) : Prop :=
  t.mem.size = s.mem.size ∧ ∀ b : Int, b ≠ a → memRead t b = memRead s b

/-- One cell holds a new word, `PC` has advanced, and nothing else has changed. -/
def StoredAndAdvanced (s t : State) (a : Int) (v : Word) (n : Nat) : Prop :=
  memRead t a = some v ∧ CellsSameBut s t a ∧ t.pc = s.pc + BitVec.ofNat 32 n ∧ StatusSame s t

/-- The machine runs and `w` is the instruction word it fetches (R100, R102). -/
def AtWord (s : State) (w : Word) : Prop := s.run = .running ∧ memRead s (s.pc.toNat : Int) = some w

/-- Parameter word `i` of the instruction at `PC` (R104). -/
def Param (s : State) (i : Nat) (r : Word) : Prop := memRead s ((s.pc.toNat + i : Nat) : Int) = some r

/-- The resolved value of a source whose mode is digit `k` of the instruction word (R46, R71): digit 1 is the raw
word, digit 0 the cell it names. -/
def sourceOf (s : State) (w : Word) (k : Nat) (r : Word) : Option Word :=
  if w.toNat / 10 ^ k % 10 = 1 then some r else memRead s r.toInt

/-- The rule shape of the F4 instructions (R120, R121, R160, R161) for one step: every exception, and the result. -/
def F4Rule (opcode : Nat) (result : Word → Word → Word → Prop) : Prop :=
  ∀ s w, AtWord s w → 0 ≤ w.toInt → w.toNat % 100 = opcode →
    (BadDigit w → step s = .next (faulted s .invalidParameterMode)) ∧
    (¬ BadDigit w → s.mem.size.val ≤ s.pc.toNat + 3 → step s = .next (faulted s .outOfBounds)) ∧
    (¬ BadDigit w → ∀ r1 r2 r3, Param s 1 r1 → Param s 2 r2 → Param s 3 r3 →
      (sourceOf s w 2 r1 = none ∨ sourceOf s w 3 r2 = none ∨ Outside s r3.toInt →
        step s = .next (faulted s .outOfBounds)) ∧
      (∀ p1 p2, sourceOf s w 2 r1 = some p1 → sourceOf s w 3 r2 = some p2 → ¬ Outside s r3.toInt →
        ∃ v t, result p1 p2 v ∧ step s = .next t ∧ StoredAndAdvanced s t r3.toInt v 4 ∧ PortsSame s t))

/-- The rule shape of the jumps (R150, R151) for one step: every exception, and both ways to go on. -/
def F3Rule (opcode : Nat) (taken : Word → Prop) : Prop :=
  ∀ s w, AtWord s w → 0 ≤ w.toInt → w.toNat % 100 = opcode →
    (BadDigit w → step s = .next (faulted s .invalidParameterMode)) ∧
    (¬ BadDigit w → s.mem.size.val ≤ s.pc.toNat + 2 → step s = .next (faulted s .outOfBounds)) ∧
    (¬ BadDigit w → ∀ r1 r2, Param s 1 r1 → Param s 2 r2 →
      (sourceOf s w 2 r1 = none ∨ sourceOf s w 3 r2 = none → step s = .next (faulted s .outOfBounds)) ∧
      (∀ p1 p2, sourceOf s w 2 r1 = some p1 → sourceOf s w 3 r2 = some p2 →
        (taken p1 → p2.toInt < 0 → step s = .next (faulted s .outOfBounds)) ∧
        (taken p1 → 0 ≤ p2.toInt → step s = .next { s with pc := p2 }) ∧
        (¬ taken p1 → step s = .next { s with pc := s.pc + 3#32 })))

/-- The source parameters of an instruction (R70). -/
def sources : Instr → List (Mode × Word)
  | .add ms r1 r2 _ => [(ms.m1, r1), (ms.m2, r2)]
  | .mul ms r1 r2 _ => [(ms.m1, r1), (ms.m2, r2)]
  | .lt ms r1 r2 _ => [(ms.m1, r1), (ms.m2, r2)]
  | .eq ms r1 r2 _ => [(ms.m1, r1), (ms.m2, r2)]
  | .jt ms r1 r2 => [(ms.m1, r1), (ms.m2, r2)]
  | .jf ms r1 r2 => [(ms.m1, r1), (ms.m2, r2)]
  | .out ms r1 => [(ms.m1, r1)]
  | .inp _ _ => []
  | .hlt _ => []

/-- The destination parameter of an instruction (R48). -/
def destOf : Instr → Option Word
  | .add _ _ _ r3 => some r3
  | .mul _ _ _ r3 => some r3
  | .lt _ _ _ r3 => some r3
  | .eq _ _ _ r3 => some r3
  | .inp _ r1 => some r1
  | .out _ _ => none
  | .jt _ _ _ => none
  | .jf _ _ _ => none
  | .hlt _ => none

/-- The instruction is a jump that is taken, and `p2` is its target (R150 to R152). -/
def TakenTo (s : State) (i : Instr) (p2 : Word) : Prop :=
  ∃ ms r1 r2 p1, Source s ms.m1 r1 p1 ∧ Source s ms.m2 r2 p2 ∧
    ((i = .jt ms r1 r2 ∧ p1.toInt ≠ 0) ∨ (i = .jf ms r1 r2 ∧ p1.toInt = 0))

/-- The instruction is a jump that is not taken. -/
def NotTaken (s : State) (i : Instr) : Prop :=
  ∃ ms r1 r2 p1, Source s ms.m1 r1 p1 ∧
    ((i = .jt ms r1 r2 ∧ p1.toInt = 0) ∨ (i = .jf ms r1 r2 ∧ p1.toInt ≠ 0))

/-- How an instruction that completes moves `PC` (R22). -/
def PcMoved (s t : State) : Instr → Prop
  | .add _ _ _ _ => t.pc.toNat = s.pc.toNat + 4
  | .mul _ _ _ _ => t.pc.toNat = s.pc.toNat + 4
  | .lt _ _ _ _ => t.pc.toNat = s.pc.toNat + 4
  | .eq _ _ _ _ => t.pc.toNat = s.pc.toNat + 4
  | .inp _ _ => t.pc.toNat = s.pc.toNat + 2
  | .out _ _ => t.pc.toNat = s.pc.toNat + 2
  | .jt ms r1 r2 =>
    (∃ p2, TakenTo s (.jt ms r1 r2) p2 ∧ 0 ≤ p2.toInt ∧ t.pc = p2) ∨
      (NotTaken s (.jt ms r1 r2) ∧ t.pc.toNat = s.pc.toNat + 3)
  | .jf ms r1 r2 =>
    (∃ p2, TakenTo s (.jf ms r1 r2) p2 ∧ 0 ≤ p2.toInt ∧ t.pc = p2) ∨
      (NotTaken s (.jf ms r1 r2) ∧ t.pc.toNat = s.pc.toNat + 3)
  | .hlt _ => t.pc.toNat = s.pc.toNat + 1

/-- What a decoded instruction and the cells it came from have to do with each other (R70, R76). -/
def MatchesMap (w : Word) (ps : List Word) : Instr → Prop
  | .add _ r1 r2 r3 => w.toNat % 100 = 1 ∧ ps.take 3 = [r1, r2, r3]
  | .mul _ r1 r2 r3 => w.toNat % 100 = 2 ∧ ps.take 3 = [r1, r2, r3]
  | .inp _ r1 => w.toNat % 100 = 3 ∧ ps.take 1 = [r1]
  | .out _ r1 => w.toNat % 100 = 4 ∧ ps.take 1 = [r1]
  | .jt _ r1 r2 => w.toNat % 100 = 5 ∧ ps.take 2 = [r1, r2]
  | .jf _ r1 r2 => w.toNat % 100 = 6 ∧ ps.take 2 = [r1, r2]
  | .lt _ r1 r2 r3 => w.toNat % 100 = 7 ∧ ps.take 3 = [r1, r2, r3]
  | .eq _ r1 r2 r3 => w.toNat % 100 = 8 ∧ ps.take 3 = [r1, r2, r3]
  | .hlt _ => w.toNat % 100 = 99

/-- What a storing meaning leaves unchanged: every cell but the destination's, the length, and `RUN` and `CAUSE`
unless an error was taken, in which case every cell is unchanged. -/
def StoreFrame (s t : State) (r : Word) : Prop :=
  (∀ k, destination s r = some k → CellsSameBut s t (k : Int)) ∧
  (destination s r = none → t.mem = s.mem) ∧
  (StatusSame s t ∨ (t.run = .faulted ∧ t.mem = s.mem ∧ t.pc = s.pc))

/-- A decimal digit character. -/
def IsDigit (c : Char) : Prop := 48 ≤ c.toNat ∧ c.toNat ≤ 57

/-- The number a string of digit characters denotes, most significant first. -/
def digitsValue (cs : List Char) : Nat := cs.foldl (fun n c => n * 10 + (c.toNat - 48)) 0

/-- Digits as R139 wants them: at least one, no superfluous leading zero. -/
def CanonicalDigits (cs : List Char) : Prop :=
  cs ≠ [] ∧ (∀ c ∈ cs, IsDigit c) ∧ (cs.head? = some '0' → cs = ['0'])

end Sys2Proof.Claims

open Sys2Proof Sys2Proof.Machine Sys2Proof.Claims

/-! ### Encoding -/

/-- Decoding an encoded well-formed instruction gives it back, whatever cells follow (R70, R71, R73). -/
def Obligations.DecodeEncodeRoundTrip : Prop :=
  ∀ (i : Instr) (rest : List Word), i.wellFormed = true → decode (encode i ++ rest) = .ok i

/-- What the decoder accepts is the re-encoding of its answer, less the digits it does not examine (R75, R84). -/
def Obligations.DecodedCellsReencode : Prop :=
  ∀ (w : Word) (ps : List Word) (i : Instr), decode (w :: ps) = .ok i →
    0 ≤ w.toInt ∧ encode i = BitVec.ofNat 32 (w.toNat % 100000) :: ps.take (i.size - 1) ∧
      i.size ≤ ps.length + 1

/-- R72, R79, R80, R82: a negative word or an unknown opcode is `InvalidOpcode`, else a digit 2 to 9 in any slot is
`InvalidParameterMode`, else the word decodes. -/
def Obligations.DecoderFailuresInOrder : Prop :=
  ∀ w : Word,
    (w.toInt < 0 ∨ w.toNat % 100 ∉ opcodes → decodeWord w = .error .invalidOpcode) ∧
    (0 ≤ w.toInt → w.toNat % 100 ∈ opcodes → BadDigit w → decodeWord w = .error .invalidParameterMode) ∧
    (0 ≤ w.toInt → w.toNat % 100 ∈ opcodes → ¬ BadDigit w → ∃ op ms, decodeWord w = .ok (op, ms))

/-- R73, R74: the modes of a decoded word are its hundreds, thousands and ten-thousands digits, 0 for Position and
1 for Immediate, and its opcode is the word modulo 100. -/
def Obligations.DecodedFieldsAreDecimalDigits : Prop :=
  ∀ (w : Word) (op : Opcode) (ms : Modes), decodeWord w = .ok (op, ms) →
    0 ≤ w.toInt ∧
    (w.toNat % 100, op) ∈ ([(1, .add), (2, .mul), (3, .inp), (4, .out), (5, .jt), (6, .jf), (7, .lt), (8, .eq),
      (99, .hlt)] : List (Nat × Opcode)) ∧
    (ms.m1 = .position ↔ w.toNat / 100 % 10 = 0) ∧ (ms.m1 = .immediate ↔ w.toNat / 100 % 10 = 1) ∧
    (ms.m2 = .position ↔ w.toNat / 1000 % 10 = 0) ∧ (ms.m2 = .immediate ↔ w.toNat / 1000 % 10 = 1) ∧
    (ms.m3 = .position ↔ w.toNat / 10000 % 10 = 0) ∧ (ms.m3 = .immediate ↔ w.toNat / 10000 % 10 = 1)

/-- R76, R77: the opcode map, each opcode with its instruction, its parameter words and its size; and every legal word
with that many cells is an instruction. -/
def Obligations.OpcodeMapAndSizes : Prop :=
  (∀ (w : Word) (ps : List Word) (i : Instr), decode (w :: ps) = .ok i →
    MatchesMap w ps i ∧ i.size = cellsOf (w.toNat % 100)) ∧
  (∀ (w : Word) (ps : List Word), 0 ≤ w.toInt → w.toNat % 100 ∈ opcodes → ¬ BadDigit w →
    cellsOf (w.toNat % 100) ≤ ps.length + 1 → ∃ i, decode (w :: ps) = .ok i)

/-- R75: digits above the ten-thousands place are not examined. -/
def Obligations.HighDigitsAreIgnored : Prop :=
  ∀ w w' : Word, 0 ≤ w.toInt → 0 ≤ w'.toInt → w.toNat % 100000 = w'.toNat % 100000 → decodeWord w = decodeWord w'

/-- R83: exactly 72 residues modulo 100000 are legal, and a word is legal exactly when it is not negative and its
residue is one of them. -/
def Obligations.LegalResiduesAreSeventyTwo : Prop :=
  ∃ residues : List Nat, residues.Nodup ∧ residues.length = 72 ∧ (∀ r ∈ residues, r < 100000) ∧
    ∀ w : Word, (∃ op ms, decodeWord w = .ok (op, ms)) ↔ 0 ≤ w.toInt ∧ w.toNat % 100000 ∈ residues

/-- Words of the spec's decoder table (V-DEC), one for each family and each way to fail. -/
def Obligations.SpecWordsDecode : Prop :=
  decode [1002#32, 4#32, 3#32, 4#32] = .ok (.mul ⟨.position, .immediate, .position⟩ 4#32 3#32 4#32) ∧
  decode [1108#32, 8#32, 8#32, 3#32] = .ok (.eq ⟨.immediate, .immediate, .position⟩ 8#32 8#32 3#32) ∧
  decode [1106#32, 0#32, 36#32] = .ok (.jf ⟨.immediate, .immediate, .position⟩ 0#32 36#32) ∧
  decode [104#32, 999#32] = .ok (.out ⟨.immediate, .position, .position⟩ 999#32) ∧
  decode [2147400099#32] = .ok (.hlt ⟨.position, .position, .position⟩) ∧
  decode [1250#32] = .error .invalidOpcode ∧
  decode [(-99 : Word)] = .error .invalidOpcode ∧
  decode [90104#32, 5#32] = .error .invalidParameterMode ∧
  decode [1#32, 0#32, 0#32] = .error .missingWord

/-! ### The execute loop -/

/-- R100, R106: when the cells from `PC` on are those of a decoded instruction, the step is that instruction's
meaning, at the same state. -/
def Obligations.StepRunsDecodedInstruction : Prop :=
  ∀ (s : State) (i : Instr) (cs : List Word), s.run = .running → decode cs = .ok i →
    (∀ k, k < i.size → memRead s ((s.pc.toNat + k : Nat) : Int) = cs[k]?) → step s = exec i s

/-- R181, R182: a step ends in `InvalidOpcode` exactly when its word is negative or its opcode unknown, and in
`InvalidParameterMode` exactly when the opcode is known and a mode digit is not 0 or 1; the state is otherwise the
old one. -/
def Obligations.DecodeErrorsAreTaken : Prop :=
  ∀ s w, AtWord s w →
    ((w.toInt < 0 ∨ w.toNat % 100 ∉ opcodes) ↔ step s = .next (faulted s .invalidOpcode)) ∧
    ((0 ≤ w.toInt ∧ w.toNat % 100 ∈ opcodes ∧ BadDigit w) ↔ step s = .next (faulted s .invalidParameterMode))

/-- R104: a legal word whose parameter words do not all lie in memory ends in `OutOfBounds` with no effect, whether or
not the instruction would use them; and every instruction that is fetched lies inside memory. -/
def Obligations.TruncatedInstructionFaults : Prop :=
  ∀ s w, AtWord s w → 0 ≤ w.toInt → w.toNat % 100 ∈ opcodes → ¬ BadDigit w →
    (s.mem.size.val < s.pc.toNat + cellsOf (w.toNat % 100) → step s = .next (faulted s .outOfBounds)) ∧
    (∀ i, fetchInstr s = .ok i → s.pc.toNat + cellsOf (w.toNat % 100) ≤ s.mem.size.val)

/-- R101: at or past the end of memory the run ends cleanly, and nothing but `RUN` changes; an empty memory included. -/
def Obligations.ImplicitHaltAtLoopHead : Prop :=
  ∀ s : State, s.run = .running → s.mem.size.val ≤ s.pc.toNat → step s = .next { s with run := .halted }

/-- R190, R23: from `HALTED` and from `FAULTED` no step leads anywhere. -/
def Obligations.EndedRunTakesNoStep : Prop :=
  ∀ s : State, s.run = .halted ∨ s.run = .faulted → ∀ t, step s ≠ .next t

/-- R212, R134, R23: a step exists exactly while the machine runs and is not waiting. The names of the two answers that
stand for the absence of a step are the model's choice (logs 4 and 5). -/
def Obligations.StepExistsUnlessWaitingOrEnded : Prop :=
  ∀ s : State,
    (s.run = .running → ¬ s.Waiting → ∃ t, step s = .next t) ∧
    (s.Waiting → step s = .fault .awaitingInput) ∧
    (s.run ≠ .running → step s = .fault .runEnded)

/-- R212, R153: the only step that leaves the state as it was is a taken jump to itself. -/
def Obligations.OnlySelfJumpStandsStill : Prop :=
  ∀ s : State, step s = .next s → ∃ i, fetchInstr s = .ok i ∧ TakenTo s i s.pc

/-- R134: a waiting machine is still running and has no step; an answer lets the `IN` complete with it, a bad line or the
end of the stream is `MalformedInput`. -/
def Obligations.WaitIsLiftedByAnswer : Prop :=
  ∀ s : State, s.Waiting →
    s.run = .running ∧ (∀ t, step s ≠ .next t) ∧
    (∀ v, ∃ t ms r1, fetchInstr s = .ok (.inp ms r1) ∧ step (s.supplyAnswer (.value v)) = .next t ∧
      memRead t r1.toInt = some v ∧ t.pc.toNat = s.pc.toNat + 2 ∧ t.run = .running ∧ t.input = []) ∧
    step (s.supplyAnswer .bad) = .next (faulted s .malformedInput) ∧
    step s.endInput = .next (faulted s.endInput .malformedInput)

/-- R22: the complete list of how `PC` changes. -/
def Obligations.PcChangesByTheList : Prop :=
  (∀ s : State, s.applyReset.pc = 0) ∧
  ∀ s t : State, step s = .next t →
    (s.mem.size.val ≤ s.pc.toNat → t.pc = s.pc) ∧
    (t.run = .faulted → t.pc = s.pc) ∧
    (∀ i, s.pc.toNat < s.mem.size.val → fetchInstr s = .ok i → t.run ≠ .faulted → PcMoved s t i) ∧
    (s.pc.toNat < s.mem.size.val → s.mem.size.val < t.pc.toNat →
      t.pc.toNat ≤ 2147483647 ∧ ∃ i, fetchInstr s = .ok i ∧ TakenTo s i t.pc)

/-- Every step keeps the invariant: canonical memory, `PC` in its range, `CAUSE` recorded exactly in `FAULTED`
(R21, R24, R26). -/
def Obligations.StepKeepsInvariant : Prop :=
  ∀ s t : State, s.Inv → step s = .next t → t.Inv

/-- The state after reset, and every constructed machine, meets the invariant. -/
def Obligations.ResetMeetsInvariant : Prop :=
  State.reset.Inv ∧
    ∀ image answers ended verdicts s, construct image answers ended verdicts = some s → s.Inv

/-- R8, R44: no step changes the length of memory, and the length is in its range. -/
def Obligations.StepKeepsMemoryLength : Prop :=
  ∀ s t : State, step s = .next t → t.mem.size = s.mem.size ∧ t.mem.size.val ≤ 2147483647

/-- R188, R189: a step that ends in a fault has changed neither memory nor `PC` nor the output log, and has recorded a
cause; its only traces are a consumed bad line and a used-up rejection. -/
def Obligations.FaultsArePrecise : Prop :=
  ∀ s t : State, step s = .next t → t.run = .faulted →
    t.mem = s.mem ∧ t.pc = s.pc ∧ t.output = s.output ∧ t.inputEnded = s.inputEnded ∧ t.cause ≠ .none ∧
    (t.input = s.input ∨ (s.input = .bad :: t.input ∧ t.cause = .malformedInput)) ∧
    (t.verdicts = s.verdicts ∨ (s.verdicts = .rejected :: t.verdicts ∧ t.cause = .outputWriteFailure))

/-- R183: `OutOfBounds` arises in exactly four situations: a missing parameter word, a Position-mode source outside
memory, a destination outside memory, a taken jump to a negative target. -/
def Obligations.OutOfBoundsExactlyFour : Prop :=
  ∀ s : State, s.run = .running →
    ((∃ t, step s = .next t ∧ t.run = .faulted ∧ t.cause = .outOfBounds) ↔
      s.pc.toNat < s.mem.size.val ∧
      ((∃ op ms, decodeWord (s.mem.read s.pc.toNat) = .ok (op, ms) ∧
          s.mem.size.val < s.pc.toNat + opcodeSize op) ∨
       (∃ i, fetchInstr s = .ok i ∧
          ((∃ r, (Mode.position, r) ∈ sources i ∧ Outside s r.toInt) ∨
           (∃ r, destOf i = some r ∧ Outside s r.toInt) ∨
           (∃ p2, TakenTo s i p2 ∧ p2.toInt < 0)))))

/-- R184, R185: `MalformedInput` is raised exactly by an `IN` with a good destination whose answer is a bad line or the
end of the stream, `OutputWriteFailure` exactly by an `OUT` whose source resolves and whose emission is rejected. -/
def Obligations.PortErrorsOnlyByPortInstructions : Prop :=
  ∀ s : State, s.run = .running →
    ((∃ t, step s = .next t ∧ t.run = .faulted ∧ t.cause = .malformedInput) ↔
      s.pc.toNat < s.mem.size.val ∧ ∃ ms r1, fetchInstr s = .ok (.inp ms r1) ∧ ¬ Outside s r1.toInt ∧
        (s.input.head? = some .bad ∨ (s.input = [] ∧ s.inputEnded = true))) ∧
    ((∃ t, step s = .next t ∧ t.run = .faulted ∧ t.cause = .outputWriteFailure) ↔
      s.pc.toNat < s.mem.size.val ∧ ∃ ms r1 p1, fetchInstr s = .ok (.out ms r1) ∧ Source s ms.m1 r1 p1 ∧
        s.verdicts.head? = some .rejected)

/-! ### Ports -/

/-- R143: a step that is no `IN` does not depend on the input port and does not touch it. -/
def Obligations.OnlyInTouchesInput : Prop :=
  ∀ (s t : State) (answers : List InputAnswer) (ended : Bool), (∀ ms r1, fetchInstr s ≠ .ok (.inp ms r1)) →
    step s = .next t →
    t.input = s.input ∧ t.inputEnded = s.inputEnded ∧
    step { s with input := answers, inputEnded := ended } = .next { t with input := answers, inputEnded := ended }

/-- R137: no step reads the output log back; whatever it held before, the same tokens are appended. -/
def Obligations.OutputLogIsWriteOnly : Prop :=
  ∀ s t : State, step s = .next t → ∃ tokens, t.output = s.output ++ tokens ∧
    ∀ log, step { s with output := log } = .next { t with output := log ++ tokens }

/-- R141: each `OUT` that completes appends exactly its source's value, and no other step changes the log. -/
def Obligations.OneTokenPerOut : Prop :=
  ∀ s t : State, step s = .next t →
    (∀ ms r1, s.pc.toNat < s.mem.size.val → fetchInstr s = .ok (.out ms r1) → t.run ≠ .faulted →
      ∃ v, Source s ms.m1 r1 v ∧ t.output = s.output ++ [v]) ∧
    ((t.run = .faulted ∨ s.mem.size.val ≤ s.pc.toNat ∨ ∀ ms r1, fetchInstr s ≠ .ok (.out ms r1)) →
      t.output = s.output)

/-! ### Memory -/

/-- R43, R44: a write outside memory is refused, a write inside it changes that cell and nothing else. -/
def Obligations.MemWriteChangesOneCell : Prop :=
  ∀ (s : State) (a : Int) (v : Word),
    (Outside s a → memWrite s a v = none ∧ memRead s a = none) ∧
    (¬ Outside s a → ∃ t, memWrite s a v = some t ∧ memRead t a = some v ∧ CellsSameBut s t a ∧
      t.pc = s.pc ∧ StatusSame s t ∧ PortsSame s t)

/-- Two canonical memories of one length that read the same everywhere are the same data (the model's listing, log 1). -/
def Obligations.CanonicalMemoryIsDetermined : Prop :=
  ∀ m m' : Memory, m.wf = true → m'.wf = true → m.size = m'.size →
    (∀ a, a < m.size.val → m.read a = m'.read a) → m = m'

/-- R55, R209: a write to a cell of the next instruction is seen by its fetch, with nothing in between. Into the
instruction word: the next step is that of the new word, with its opcode, its three digits and the parameter words that
stand in memory, or the error of the new word. Into a parameter word: the next step is that of the same word with the
written value as that parameter. -/
def Obligations.StoreIsSeenByNextFetch : Prop :=
  ∀ (s t : State) (a : Int) (v : Word), memWrite s a v = some t → s.run = .running →
    ((s.pc.toNat : Int) = a →
      (v.toInt < 0 ∨ v.toNat % 100 ∉ opcodes → step t = .next (faulted t .invalidOpcode)) ∧
      (0 ≤ v.toInt → v.toNat % 100 ∈ opcodes → BadDigit v → step t = .next (faulted t .invalidParameterMode)) ∧
      (0 ≤ v.toInt → v.toNat % 100 ∈ opcodes → ¬ BadDigit v →
        (s.mem.size.val < s.pc.toNat + cellsOf (v.toNat % 100) → step t = .next (faulted t .outOfBounds)) ∧
        (s.pc.toNat + cellsOf (v.toNat % 100) ≤ s.mem.size.val → ∃ i, step t = exec i t ∧
          i.opcodeNumber = v.toNat % 100 ∧ i.modes.m1.digit = v.toNat / 100 % 10 ∧
          i.modes.m2.digit = v.toNat / 1000 % 10 ∧ i.modes.m3.digit = v.toNat / 10000 % 10 ∧
          ∀ k, k < i.params.length → i.params[k]? = memRead s ((s.pc.toNat + 1 + k : Nat) : Int)))) ∧
    (∀ (i : Instr) (k : Nat), s.pc.toNat < s.mem.size.val → fetchInstr s = .ok i → k < i.params.length →
      ((s.pc.toNat + 1 + k : Nat) : Int) = a →
      ∃ i', step t = exec i' t ∧ i'.opcodeNumber = i.opcodeNumber ∧ i'.modes = i.modes ∧ i'.params = i.params.set k v)

/-- R46, R47: a source resolves to what it denotes, and fails exactly for a Position-mode address outside memory. -/
def Obligations.ResolverFollowsMode : Prop :=
  ∀ (s : State) (m : Mode) (r : Word),
    (∀ p, resolve s m r = some p ↔ Source s m r p) ∧
    (resolve s m r = none ↔ m = .position ∧ Outside s r.toInt)

/-- R49, R78, R81: the mode digits of destination slots and of absent slots have no effect. -/
def Obligations.IgnoredDigitsHaveNoEffect : Prop :=
  ∀ (s : State) (m1 m2 m3 n1 n2 n3 : Mode) (r1 r2 r3 : Word),
    exec (.add ⟨m1, m2, m3⟩ r1 r2 r3) s = exec (.add ⟨m1, m2, n3⟩ r1 r2 r3) s ∧
    exec (.mul ⟨m1, m2, m3⟩ r1 r2 r3) s = exec (.mul ⟨m1, m2, n3⟩ r1 r2 r3) s ∧
    exec (.lt ⟨m1, m2, m3⟩ r1 r2 r3) s = exec (.lt ⟨m1, m2, n3⟩ r1 r2 r3) s ∧
    exec (.eq ⟨m1, m2, m3⟩ r1 r2 r3) s = exec (.eq ⟨m1, m2, n3⟩ r1 r2 r3) s ∧
    exec (.jt ⟨m1, m2, m3⟩ r1 r2) s = exec (.jt ⟨m1, m2, n3⟩ r1 r2) s ∧
    exec (.jf ⟨m1, m2, m3⟩ r1 r2) s = exec (.jf ⟨m1, m2, n3⟩ r1 r2) s ∧
    exec (.out ⟨m1, m2, m3⟩ r1) s = exec (.out ⟨m1, n2, n3⟩ r1) s ∧
    exec (.inp ⟨m1, m2, m3⟩ r1) s = exec (.inp ⟨n1, n2, n3⟩ r1) s ∧
    exec (.hlt ⟨m1, m2, m3⟩) s = exec (.hlt ⟨n1, n2, n3⟩) s

/-! ### Results: each instruction completes -/

/-- `ADD` (pseudocode of R120) completes: the destination holds the sum modulo 2^32, `PC` advances by 4, and nothing
else changes. -/
def Obligations.AddCompletesWithWrappedSum : Prop :=
  ∀ (s : State) (ms : Modes) (r1 r2 r3 p1 p2 : Word), Source s ms.m1 r1 p1 → Source s ms.m2 r2 p2 →
    ¬ Outside s r3.toInt →
    ∃ v t, WrapsTo v (p1.toInt + p2.toInt) ∧ exec (.add ms r1 r2 r3) s = .next t ∧
      StoredAndAdvanced s t r3.toInt v 4 ∧ PortsSame s t

/-- `MUL` (pseudocode of R121) completes: the destination holds the product modulo 2^32. -/
def Obligations.MulCompletesWithWrappedProduct : Prop :=
  ∀ (s : State) (ms : Modes) (r1 r2 r3 p1 p2 : Word), Source s ms.m1 r1 p1 → Source s ms.m2 r2 p2 →
    ¬ Outside s r3.toInt →
    ∃ v t, WrapsTo v (p1.toInt * p2.toInt) ∧ exec (.mul ms r1 r2 r3) s = .next t ∧
      StoredAndAdvanced s t r3.toInt v 4 ∧ PortsSame s t

/-- `LT` (pseudocode of R160) completes: the destination holds 1 or 0, by the exact signed comparison. -/
def Obligations.LtCompletesWithTruth : Prop :=
  ∀ (s : State) (ms : Modes) (r1 r2 r3 p1 p2 : Word), Source s ms.m1 r1 p1 → Source s ms.m2 r2 p2 →
    ¬ Outside s r3.toInt →
    ∃ v t, ((p1.toInt < p2.toInt ∧ v = 1#32) ∨ (p2.toInt ≤ p1.toInt ∧ v = 0#32)) ∧
      exec (.lt ms r1 r2 r3) s = .next t ∧ StoredAndAdvanced s t r3.toInt v 4 ∧ PortsSame s t

/-- `EQ` (pseudocode of R161) completes: the destination holds 1 or 0, by equality of all 32 bits. -/
def Obligations.EqCompletesWithTruth : Prop :=
  ∀ (s : State) (ms : Modes) (r1 r2 r3 p1 p2 : Word), Source s ms.m1 r1 p1 → Source s ms.m2 r2 p2 →
    ¬ Outside s r3.toInt →
    ∃ v t, ((p1 = p2 ∧ v = 1#32) ∨ (p1 ≠ p2 ∧ v = 0#32)) ∧
      exec (.eq ms r1 r2 r3) s = .next t ∧ StoredAndAdvanced s t r3.toInt v 4 ∧ PortsSame s t

/-- `IN` (pseudocode of R135) completes when an integer is next: the raw destination holds it, exactly that answer is
consumed, and nothing else changes. -/
def Obligations.InCompletesWithToken : Prop :=
  ∀ (s : State) (ms : Modes) (r1 v : Word) (rest : List InputAnswer), ¬ Outside s r1.toInt →
    s.input = .value v :: rest →
    ∃ t, exec (.inp ms r1) s = .next t ∧ StoredAndAdvanced s t r1.toInt v 2 ∧ t.input = rest ∧
      t.inputEnded = s.inputEnded ∧ t.output = s.output ∧ t.verdicts = s.verdicts

/-- `OUT` (pseudocode of R140) completes when the sink accepts: the resolved source is appended to the log, and memory
is not written. That a sink with no listed verdict accepts is the model's choice (log 3). -/
def Obligations.OutCompletesWithSource : Prop :=
  ∀ (s : State) (ms : Modes) (r1 p1 : Word), Source s ms.m1 r1 p1 → s.verdicts.head? ≠ some .rejected →
    exec (.out ms r1) s =
      .next { s with output := s.output ++ [p1], verdicts := s.verdicts.tail, pc := s.pc + 2#32 }

/-- `JT` (pseudocode of R150) completes: it goes to `p2` when `p1` is not zero (negative values included) and the target
is not negative, and advances by 3 when `p1` is zero, whatever `p2` is. -/
def Obligations.JtCompletes : Prop :=
  ∀ (s : State) (ms : Modes) (r1 r2 p1 p2 : Word), Source s ms.m1 r1 p1 → Source s ms.m2 r2 p2 →
    (p1.toInt ≠ 0 → 0 ≤ p2.toInt → exec (.jt ms r1 r2) s = .next { s with pc := p2 }) ∧
    (p1.toInt = 0 → exec (.jt ms r1 r2) s = .next { s with pc := s.pc + 3#32 })

/-- `JF` (pseudocode of R151) completes: it goes to `p2` when `p1` is zero and the target is not negative, and advances
by 3 when `p1` is not zero, whatever `p2` is. -/
def Obligations.JfCompletes : Prop :=
  ∀ (s : State) (ms : Modes) (r1 r2 p1 p2 : Word), Source s ms.m1 r1 p1 → Source s ms.m2 r2 p2 →
    (p1.toInt = 0 → 0 ≤ p2.toInt → exec (.jf ms r1 r2) s = .next { s with pc := p2 }) ∧
    (p1.toInt ≠ 0 → exec (.jf ms r1 r2) s = .next { s with pc := s.pc + 3#32 })

/-- `HLT` (pseudocode of R170) completes: `PC + 1`, `RUN` is `HALTED`, and nothing else changes. -/
def Obligations.HltCompletes : Prop :=
  ∀ (s : State) (ms : Modes), exec (.hlt ms) s = .next { s with pc := s.pc + 1#32, run := .halted }

/-! ### The instruction rules, one step each -/

/-- R120, `ADD`: every exception and the result. -/
def Obligations.AddStepFollowsItsRule : Prop := F4Rule 1 (fun p1 p2 v => WrapsTo v (p1.toInt + p2.toInt))

/-- R121, `MUL`: every exception and the result. -/
def Obligations.MulStepFollowsItsRule : Prop := F4Rule 2 (fun p1 p2 v => WrapsTo v (p1.toInt * p2.toInt))

/-- R160, `LT`: every exception and the result. -/
def Obligations.LtStepFollowsItsRule : Prop :=
  F4Rule 7 (fun p1 p2 v => (p1.toInt < p2.toInt ∧ v = 1#32) ∨ (p2.toInt ≤ p1.toInt ∧ v = 0#32))

/-- R161, `EQ`: every exception and the result. -/
def Obligations.EqStepFollowsItsRule : Prop :=
  F4Rule 8 (fun p1 p2 v => (p1 = p2 ∧ v = 1#32) ∨ (p1 ≠ p2 ∧ v = 0#32))

/-- R150, R152, `JT`: every exception and both ways to go on. -/
def Obligations.JtStepFollowsItsRule : Prop := F3Rule 5 (fun p1 => p1.toInt ≠ 0)

/-- R151, R152, `JF`: every exception and both ways to go on. -/
def Obligations.JfStepFollowsItsRule : Prop := F3Rule 6 (fun p1 => p1.toInt = 0)

/-- R135, R136, `IN`: the destination is checked before the port is touched, a bad line is consumed, an ended stream
faults, an integer is stored, and with no answer yet there is no step (R134). -/
def Obligations.InStepFollowsItsRule : Prop :=
  ∀ s w, AtWord s w → 0 ≤ w.toInt → w.toNat % 100 = 3 →
    (BadDigit w → step s = .next (faulted s .invalidParameterMode)) ∧
    (¬ BadDigit w → s.mem.size.val ≤ s.pc.toNat + 1 → step s = .next (faulted s .outOfBounds)) ∧
    (¬ BadDigit w → ∀ r1, Param s 1 r1 →
      (Outside s r1.toInt → step s = .next (faulted s .outOfBounds)) ∧
      (¬ Outside s r1.toInt →
        (∀ rest, s.input = .bad :: rest → step s = .next (faulted { s with input := rest } .malformedInput)) ∧
        (s.input = [] → s.inputEnded = true → step s = .next (faulted s .malformedInput)) ∧
        (s.input = [] → s.inputEnded = false → ∀ t, step s ≠ .next t) ∧
        (∀ v rest, s.input = .value v :: rest →
          ∃ t, step s = .next t ∧ StoredAndAdvanced s t r1.toInt v 2 ∧ t.input = rest ∧
            t.inputEnded = s.inputEnded ∧ t.output = s.output ∧ t.verdicts = s.verdicts)))

/-- R140, R138, `OUT`: the source is resolved through its digit before the sink is asked; a rejected token is not in
the log, an accepted one is appended. -/
def Obligations.OutStepFollowsItsRule : Prop :=
  ∀ s w, AtWord s w → 0 ≤ w.toInt → w.toNat % 100 = 4 →
    (BadDigit w → step s = .next (faulted s .invalidParameterMode)) ∧
    (¬ BadDigit w → s.mem.size.val ≤ s.pc.toNat + 1 → step s = .next (faulted s .outOfBounds)) ∧
    (¬ BadDigit w → ∀ r1, Param s 1 r1 →
      (sourceOf s w 2 r1 = none → step s = .next (faulted s .outOfBounds)) ∧
      (∀ p1 rest, sourceOf s w 2 r1 = some p1 → s.verdicts = .rejected :: rest →
        step s = .next (faulted { s with verdicts := rest } .outputWriteFailure)) ∧
      (∀ p1 rest, sourceOf s w 2 r1 = some p1 → s.verdicts = .accepted :: rest →
        step s = .next { s with output := s.output ++ [p1], verdicts := rest, pc := s.pc + 2#32 }))

/-- R170, `HLT`: a bad digit in any slot is its only exception, also in the last cell of memory. -/
def Obligations.HltStepFollowsItsRule : Prop :=
  ∀ s w, AtWord s w → 0 ≤ w.toInt → w.toNat % 100 = 99 →
    (BadDigit w → step s = .next (faulted s .invalidParameterMode)) ∧
    (¬ BadDigit w → step s = .next { s with pc := s.pc + 1#32, run := .halted })

/-! ### The integer laws -/

/-- R11, R122: `wrap32` is the one 32-bit value congruent to the exact integer. -/
def Obligations.WrapIsTheCongruentWord : Prop :=
  ∀ (z : Int) (v : Word), v = wrap32 z ↔ WrapsTo v z

/-- R124: `ADD` at every sign combination, and `ADD` and `MUL` commute in their two sources, modes and faults
included. -/
def Obligations.AdditionSignsAndCommutation : Prop :=
  (∀ (s : State) (ms : Modes) (r1 r2 r3 p1 p2 : Word), Source s ms.m1 r1 p1 → Source s ms.m2 r2 p2 →
    ¬ Outside s r3.toInt →
    ∃ v t, exec (.add ms r1 r2 r3) s = .next t ∧ memRead t r3.toInt = some v ∧
      WrapsTo v (p1.toInt + p2.toInt) ∧
      ((p1.toInt < 0 ∧ 0 ≤ p2.toInt ∨ 0 ≤ p1.toInt ∧ p2.toInt < 0) → v.toInt = p1.toInt + p2.toInt) ∧
      (0 ≤ p1.toInt → 0 ≤ p2.toInt → 2147483647 < p1.toInt + p2.toInt → v.toInt < 0) ∧
      (p1.toInt < 0 → p2.toInt < 0 → p1.toInt + p2.toInt < -2147483648 → 0 ≤ v.toInt)) ∧
  (∀ (s : State) (m1 m2 m3 : Mode) (r1 r2 r3 : Word),
    exec (.add ⟨m1, m2, m3⟩ r1 r2 r3) s = exec (.add ⟨m2, m1, m3⟩ r2 r1 r3) s ∧
    exec (.mul ⟨m1, m2, m3⟩ r1 r2 r3) s = exec (.mul ⟨m2, m1, m3⟩ r2 r1 r3) s)

/-- R123: what `MUL` writes is the wrapped exact product, and the exact product itself when that fits. -/
def Obligations.ProductIsExactWhenItFits : Prop :=
  ∀ (s : State) (ms : Modes) (r1 r2 r3 p1 p2 : Word), Source s ms.m1 r1 p1 → Source s ms.m2 r2 p2 →
    ¬ Outside s r3.toInt →
    ∃ v t, exec (.mul ms r1 r2 r3) s = .next t ∧ memRead t r3.toInt = some v ∧
      WrapsTo v (p1.toInt * p2.toInt) ∧
      (-2147483648 ≤ p1.toInt * p2.toInt → p1.toInt * p2.toInt ≤ 2147483647 → v.toInt = p1.toInt * p2.toInt)

/-! ### The host's side -/

/-- R200, R206: reset writes `PC`, `RUN` and `CAUSE` and nothing else; memory and both ports are as a previous run left
them. -/
def Obligations.ResetWritesThreeRegisters : Prop :=
  ∀ s : State, s.applyReset.pc = 0 ∧ s.applyReset.run = .running ∧ s.applyReset.cause = .none ∧
    s.applyReset.mem = s.mem ∧ PortsSame s s.applyReset

/-- R32, R85, R203: a constructed machine is at its reset values, its memory is the image cell by cell, and its ports
are the ones supplied; an image is refused exactly when it is longer than R8 allows. -/
def Obligations.ConstructionLoadsTheImage : Prop :=
  ∀ (image : List Word) (answers : List InputAnswer) (ended : Bool) (verdicts : List Verdict),
    (construct image answers ended verdicts = none ↔ 2147483647 < image.length) ∧
    ∀ s, construct image answers ended verdicts = some s →
      s.pc = 0 ∧ s.run = .running ∧ s.cause = .none ∧ s.mem.size.val = image.length ∧
      (∀ k : Nat, k < image.length → memRead s (k : Int) = image[k]?) ∧
      s.input = answers ∧ s.inputEnded = ended ∧ s.output = [] ∧ s.verdicts = verdicts

/-- R23, R24, R31, R205: the numbers the host reads for `RUN` and `CAUSE`, and that it reads memory only once the run
has ended. -/
def Obligations.HostReadsStatusAndResult : Prop :=
  (RunState.running.code, RunState.halted.code, RunState.faulted.code) = (0, 1, 2) ∧
  [FatalError.invalidOpcode, .invalidParameterMode, .outOfBounds, .malformedInput, .outputWriteFailure].map
    (fun e => e.toCause.code) = [1, 2, 3, 4, 5] ∧ Cause.none.code = 0 ∧
  ∀ (s : State) (a : Nat), (s.run = .running → hostRead s a = none) ∧
    (s.run ≠ .running → a < s.mem.size.val → hostRead s a = some (s.mem.read a))

/-- R139: the output numeral is an optional minus sign for negative values and then canonical digits of the magnitude,
and the stream is one line per token, in the order of the log. -/
def Obligations.OutputNumeralIsCanonical : Prop :=
  (∀ v : Word, ∃ ds, CanonicalDigits ds ∧ (digitsValue ds : Int) = v.toInt.natAbs ∧
    canonicalNumeral v = (if v.toInt < 0 then '-' :: ds else ds)) ∧
  (∀ s : State, s.output = [] → s.outputStream = []) ∧
  (∀ (s t : State) (v : Word), t.output = s.output ++ [v] →
    t.outputStream = s.outputStream ++ canonicalNumeral v ++ ['\n'])

/-- R132 (a): for every line syntax, the canonical numeral of a token parses to that token. -/
def Obligations.CanonicalNumeralParses : Prop :=
  ∀ (syn : LineSyntax) (v : Word), parseLine syn (canonicalNumeral v) = .value v

/-- R132 (b), (c), R133: for every line syntax, a line that after what the adapter ignores is not an optional sign and
digits is `Bad`, the empty line with it; and so is every line that is an optional sign and digits whose value is outside
the `i32` range, with or without anything the adapter ignores around it. What an adapter may ignore (spaces, tabs and one
final carriage return) is the model's choice (log 6); the clause that a line with any other character is `Bad` rests on
it. -/
def Obligations.MalformedLinesAreBad : Prop :=
  ∀ syn : LineSyntax,
    (∀ line, (∀ ds, ds ≠ [] → (∀ c ∈ ds, IsDigit c) →
        strippedLine syn line ≠ ds ∧ strippedLine syn line ≠ '-' :: ds ∧ strippedLine syn line ≠ '+' :: ds) →
      parseLine syn line = .bad) ∧
    parseLine syn [] = .bad ∧
    (∀ line c, c ∈ line → ¬ IsDigit c → c ∉ ['-', '+', ' ', '\t', '\r'] → parseLine syn line = .bad) ∧
    (∀ line ds, (∀ c ∈ ds, IsDigit c) →
      (2147483647 < digitsValue ds → line = ds ∨ line = '+' :: ds → parseLine syn line = .bad) ∧
      (2147483647 < digitsValue ds → strippedLine syn line = ds ∨ strippedLine syn line = '+' :: ds →
        parseLine syn line = .bad) ∧
      (2147483648 < digitsValue ds → line = '-' :: ds ∨ strippedLine syn line = '-' :: ds →
        parseLine syn line = .bad))

/-! ### Frames -/

/-- What `ADD`, `MUL`, `LT`, `EQ` and `IN` leave unchanged whenever they answer a next state. The first four touch no
port; `IN` touches the input port's queue only. -/
def Obligations.StoringFrame : Prop :=
  ∀ (s t : State) (ms : Modes) (r1 r2 r3 : Word),
    (exec (.add ms r1 r2 r3) s = .next t ∨ exec (.mul ms r1 r2 r3) s = .next t ∨ exec (.lt ms r1 r2 r3) s = .next t ∨
      exec (.eq ms r1 r2 r3) s = .next t → StoreFrame s t r3 ∧ PortsSame s t) ∧
    (exec (.inp ms r1) s = .next t → StoreFrame s t r1 ∧ t.inputEnded = s.inputEnded ∧ t.output = s.output ∧
      t.verdicts = s.verdicts)

/-- What `OUT`, `JT`, `JF` and `HLT` leave unchanged whenever they answer a next state: all of memory; `OUT` touches the
output port only, the others no port; `RUN` and `CAUSE` change only by an error taken, or `RUN` by `HLT`. -/
def Obligations.NonStoringFrame : Prop :=
  ∀ (s t : State) (ms : Modes) (r1 r2 : Word),
    (exec (.out ms r1) s = .next t → t.mem = s.mem ∧ t.input = s.input ∧ t.inputEnded = s.inputEnded ∧
      (StatusSame s t ∨ (t.run = .faulted ∧ t.output = s.output ∧ t.pc = s.pc))) ∧
    (exec (.jt ms r1 r2) s = .next t ∨ exec (.jf ms r1 r2) s = .next t →
      t.mem = s.mem ∧ PortsSame s t ∧ (StatusSame s t ∨ (t.run = .faulted ∧ t.pc = s.pc))) ∧
    (exec (.hlt ms) s = .next t → t.mem = s.mem ∧ PortsSame s t ∧ t.cause = s.cause)
end

