-- ==== Sys2Proof/Laws/Decode.lean ====
section
/-!
SUPPORT. The decoder said once (R72, R73, R76, R79, R80): which words decode, and what a list of cells decodes to.
-/

namespace Sys2Proof

theorem Mode.digit_lt_two (m : Mode) : m.digit < 2 := by cases m <;> decide

theorem Mode.digit_inj {m m' : Mode} : m.digit = m'.digit ↔ m = m' := by cases m <;> cases m' <;> decide

/-- Every digit below 2 is a mode's digit (R74). -/
theorem Mode.exists_digit {d : Nat} (h : d < 2) : ∃ m : Mode, d = m.digit := by
  interval_cases d
  · exact ⟨.position, rfl⟩
  · exact ⟨.immediate, rfl⟩

theorem modeOfDigit_eq_some {d : Nat} {m : Mode} : modeOfDigit d = some m ↔ d = m.digit := by
  unfold modeOfDigit
  cases m <;> (split <;> simp_all [Mode.digit])

/-- All three digits must be modes (R80, R81). -/
theorem modesOfDigits_eq_some {d : Digits} {ms : Modes} :
    modesOfDigits d = some ms ↔ d.m1 = ms.m1.digit ∧ d.m2 = ms.m2.digit ∧ d.m3 = ms.m3.digit := by
  obtain ⟨a, b, c⟩ := ms
  unfold modesOfDigits
  split
  · next m1 m2 m3 h1 h2 h3 =>
    rw [modeOfDigit_eq_some.1 h1, modeOfDigit_eq_some.1 h2, modeOfDigit_eq_some.1 h3]
    simp [Mode.digit_inj]
  · next h =>
    simp only [reduceCtorEq, false_iff, not_and]
    exact fun h1 h2 h3 =>
      h a b c (modeOfDigit_eq_some.2 h1) (modeOfDigit_eq_some.2 h2) (modeOfDigit_eq_some.2 h3)

/-- The opcode map read from its answer (R76). -/
theorem opcodeOfNumber_eq_some {n : Nat} {op : Opcode} (h : opcodeOfNumber n = some op) :
    (n, op) ∈ ([(1, .add), (2, .mul), (3, .inp), (4, .out), (5, .jt), (6, .jf), (7, .lt), (8, .eq), (99, .hlt)] :
      List (Nat × Opcode)) := by
  unfold opcodeOfNumber at h
  split at h <;> simp_all

/-- The opcode map is defined exactly on the nine numbers (R76, R79). -/
theorem opcodeOfNumber_isSome {n : Nat} : (∃ op, opcodeOfNumber n = some op) ↔ n ∈ knownOpcodes := by
  constructor
  · rintro ⟨op, h⟩
    have := opcodeOfNumber_eq_some h
    simp only [List.mem_cons, Prod.mk.injEq, List.not_mem_nil, or_false] at this
    unfold knownOpcodes
    simp only [List.mem_cons, List.not_mem_nil, or_false]
    tauto
  · intro h
    unfold knownOpcodes at h
    fin_cases h <;> exact ⟨_, rfl⟩

/-- The words that decode, and to what (R72, R73, R79, R80). -/
theorem decodeWord_eq_ok {w : Word} {op : Opcode} {ms : Modes} :
    decodeWord w = .ok (op, ms) ↔
      0 ≤ w.toInt ∧ opcodeOfNumber (w.toNat % 100) = some op ∧ w.toNat / 100 % 10 = ms.m1.digit ∧
        w.toNat / 1000 % 10 = ms.m2.digit ∧ w.toNat / 10000 % 10 = ms.m3.digit := by
  have hmodes : modesOfDigits (extractDigits w.toNat) = some ms ↔ _ := modesOfDigits_eq_some
  simp only [extractDigits, decimalDigit, Nat.reducePow] at hmodes
  unfold decodeWord
  by_cases hw : w.toInt < 0
  · simp [hw]
  · simp only [hw, if_false, extractDigits, decimalDigit, Nat.reducePow, Int.not_lt.1 hw, true_and]
    rw [← hmodes]
    cases opcodeOfNumber (w.toNat % 100) with
    | none => simp
    | some op' => simp only; split <;> simp_all

/-- Which cells decode: the first word does, and its parameter words are there (R70, R103). -/
theorem decode_cons_eq_ok {w : Word} {ps : List Word} {i : Instr} :
    decode (w :: ps) = .ok i ↔ ∃ op ms, decodeWord w = .ok (op, ms) ∧ buildInstr op ms ps = some i := by
  change (match decodeWord w with
    | .error e => .error e
    | .ok (op, ms) => match buildInstr op ms ps with
      | none => .error .missingWord
      | some i => .ok i : Except DecodeError Instr) = .ok i ↔ _
  rcases decodeWord w with e | ⟨op, ms⟩
  · simp
  · cases hb : buildInstr op ms ps with
    | none => simp [hb]
    | some j => simp [hb]

/-- An instruction needs its size's worth of cells, and takes its parameters from them in order (R70). -/
theorem buildInstr_eq_some {op : Opcode} {ms : Modes} {ps : List Word} {i : Instr} (h : buildInstr op ms ps = some i) :
    opcodeOfNumber i.opcodeNumber = some op ∧ i.modes = ms ∧ i.size = opcodeSize op ∧ i.size ≤ ps.length + 1 ∧
      i.params = ps.take (opcodeSize op - 1) := by
  cases op <;> rcases ps with _ | ⟨r1, _ | ⟨r2, _ | ⟨r3, ps⟩⟩⟩ <;> simp [buildInstr] at h <;> subst h <;>
    simp [opcodeOfNumber, Instr.opcodeNumber, Instr.modes, Instr.size, Instr.params, opcodeSize]

end Sys2Proof
end

