-- ==== Sys2Proof/Laws/State.lean ====
section
/-!
SUPPORT. One lemma per field for each update of the state, true by `rfl`, so that no proof unfolds a record update.
-/

namespace Sys2Proof.Machine

section Fields

variable (s : State)

@[simp] theorem State.setCell_mem (k : Nat) (v : Word) : (s.setCell k v).mem = s.mem.write k v := rfl
@[simp] theorem State.setCell_pc (k : Nat) (v : Word) : (s.setCell k v).pc = s.pc := rfl
@[simp] theorem State.setCell_run (k : Nat) (v : Word) : (s.setCell k v).run = s.run := rfl
@[simp] theorem State.setCell_cause (k : Nat) (v : Word) : (s.setCell k v).cause = s.cause := rfl
@[simp] theorem State.setCell_input (k : Nat) (v : Word) : (s.setCell k v).input = s.input := rfl
@[simp] theorem State.setCell_inputEnded (k : Nat) (v : Word) : (s.setCell k v).inputEnded = s.inputEnded := rfl
@[simp] theorem State.setCell_output (k : Nat) (v : Word) : (s.setCell k v).output = s.output := rfl
@[simp] theorem State.setCell_verdicts (k : Nat) (v : Word) : (s.setCell k v).verdicts = s.verdicts := rfl

@[simp] theorem State.raise_mem (e : FatalError) : (s.raise e).mem = s.mem := rfl
@[simp] theorem State.raise_pc (e : FatalError) : (s.raise e).pc = s.pc := rfl
@[simp] theorem State.raise_run (e : FatalError) : (s.raise e).run = .faulted := rfl
@[simp] theorem State.raise_cause (e : FatalError) : (s.raise e).cause = e.toCause := rfl
@[simp] theorem State.raise_input (e : FatalError) : (s.raise e).input = s.input := rfl
@[simp] theorem State.raise_inputEnded (e : FatalError) : (s.raise e).inputEnded = s.inputEnded := rfl
@[simp] theorem State.raise_output (e : FatalError) : (s.raise e).output = s.output := rfl
@[simp] theorem State.raise_verdicts (e : FatalError) : (s.raise e).verdicts = s.verdicts := rfl

@[simp] theorem State.advance_mem (n : Nat) : (s.advance n).mem = s.mem := rfl
@[simp] theorem State.advance_pc (n : Nat) : (s.advance n).pc = s.pc + BitVec.ofNat 32 n := rfl
@[simp] theorem State.advance_run (n : Nat) : (s.advance n).run = s.run := rfl
@[simp] theorem State.advance_cause (n : Nat) : (s.advance n).cause = s.cause := rfl
@[simp] theorem State.advance_input (n : Nat) : (s.advance n).input = s.input := rfl
@[simp] theorem State.advance_inputEnded (n : Nat) : (s.advance n).inputEnded = s.inputEnded := rfl
@[simp] theorem State.advance_output (n : Nat) : (s.advance n).output = s.output := rfl
@[simp] theorem State.advance_verdicts (n : Nat) : (s.advance n).verdicts = s.verdicts := rfl

@[simp] theorem State.jump_mem (t : Word) : (s.jump t).mem = s.mem := rfl
@[simp] theorem State.jump_pc (t : Word) : (s.jump t).pc = t := rfl
@[simp] theorem State.jump_run (t : Word) : (s.jump t).run = s.run := rfl
@[simp] theorem State.jump_cause (t : Word) : (s.jump t).cause = s.cause := rfl
@[simp] theorem State.jump_input (t : Word) : (s.jump t).input = s.input := rfl
@[simp] theorem State.jump_inputEnded (t : Word) : (s.jump t).inputEnded = s.inputEnded := rfl
@[simp] theorem State.jump_output (t : Word) : (s.jump t).output = s.output := rfl
@[simp] theorem State.jump_verdicts (t : Word) : (s.jump t).verdicts = s.verdicts := rfl

@[simp] theorem State.halt_mem : (s.halt).mem = s.mem := rfl
@[simp] theorem State.halt_pc : (s.halt).pc = s.pc := rfl
@[simp] theorem State.halt_run : (s.halt).run = .halted := rfl
@[simp] theorem State.halt_cause : (s.halt).cause = s.cause := rfl
@[simp] theorem State.halt_input : (s.halt).input = s.input := rfl
@[simp] theorem State.halt_inputEnded : (s.halt).inputEnded = s.inputEnded := rfl
@[simp] theorem State.halt_output : (s.halt).output = s.output := rfl
@[simp] theorem State.halt_verdicts : (s.halt).verdicts = s.verdicts := rfl

@[simp] theorem State.applyReset_mem : (s.applyReset).mem = s.mem := rfl
@[simp] theorem State.applyReset_pc : (s.applyReset).pc = 0 := rfl
@[simp] theorem State.applyReset_run : (s.applyReset).run = .running := rfl
@[simp] theorem State.applyReset_cause : (s.applyReset).cause = .none := rfl
@[simp] theorem State.applyReset_input : (s.applyReset).input = s.input := rfl
@[simp] theorem State.applyReset_inputEnded : (s.applyReset).inputEnded = s.inputEnded := rfl
@[simp] theorem State.applyReset_output : (s.applyReset).output = s.output := rfl
@[simp] theorem State.applyReset_verdicts : (s.applyReset).verdicts = s.verdicts := rfl

@[simp] theorem State.endInput_mem : (s.endInput).mem = s.mem := rfl
@[simp] theorem State.endInput_pc : (s.endInput).pc = s.pc := rfl
@[simp] theorem State.endInput_run : (s.endInput).run = s.run := rfl
@[simp] theorem State.endInput_cause : (s.endInput).cause = s.cause := rfl
@[simp] theorem State.endInput_input : (s.endInput).input = s.input := rfl
@[simp] theorem State.endInput_inputEnded : (s.endInput).inputEnded = true := rfl
@[simp] theorem State.endInput_output : (s.endInput).output = s.output := rfl
@[simp] theorem State.endInput_verdicts : (s.endInput).verdicts = s.verdicts := rfl

end Fields

@[simp] theorem Memory.write_size (m : Memory) (a : Nat) (v : Word) : (m.write a v).size = m.size := rfl

@[simp] theorem Memory.write_cells (m : Memory) (a : Nat) (v : Word) : (m.write a v).cells = putCell m.cells a v := rfl

/-- No fatal error records the cause `none` (R24, R180). -/
@[simp] theorem FatalError.toCause_ne_none (e : FatalError) : e.toCause ≠ .none := by cases e <;> decide

/-- The five errors have five causes (R24). -/
theorem FatalError.toCause_inj {e e' : FatalError} (h : e.toCause = e'.toCause) : e = e' := by
  cases e <;> cases e' <;> first | rfl | (exact absurd h (by decide))

end Sys2Proof.Machine
end

