-- ==== Sys2Proof/Laws/Memory.lean ====
section
/-!
SUPPORT. The laws of the cell list: a read after a write, and that every memory operation keeps the canonical form.
The first two need no canonical form, so they hold in every state.
-/

namespace Sys2Proof.Machine

/-! ### Reads after writes -/

theorem lookupCell_eraseCell_self (cs : List (Nat × Word)) (a : Nat) : lookupCell (eraseCell cs a) a = 0#32 := by
  induction cs with
  | nil => rfl
  | cons c rest ih =>
    obtain ⟨k, v⟩ := c
    by_cases h : k = a <;> simp [eraseCell, lookupCell, h, ih]

theorem lookupCell_eraseCell_other {a b : Nat} (h : b ≠ a) (cs : List (Nat × Word)) :
    lookupCell (eraseCell cs a) b = lookupCell cs b := by
  induction cs with
  | nil => rfl
  | cons c rest ih =>
    obtain ⟨k, v⟩ := c
    by_cases hk : k = a
    · subst hk
      simp [eraseCell, lookupCell, Ne.symm h, ih]
    · simp [eraseCell, lookupCell, hk, ih]

theorem lookupCell_insertCell_other {a b : Nat} (h : b ≠ a) (cs : List (Nat × Word)) (v : Word) :
    lookupCell (insertCell cs a v) b = lookupCell cs b := by
  induction cs with
  | nil => simp [insertCell, lookupCell, Ne.symm h]
  | cons c rest ih =>
    obtain ⟨k, u⟩ := c
    by_cases hk : a < k <;> simp [insertCell, lookupCell, hk, Ne.symm h, ih]

theorem lookupCell_insertCell_erased (cs : List (Nat × Word)) (a : Nat) (v : Word) :
    lookupCell (insertCell (eraseCell cs a) a v) a = v := by
  induction cs with
  | nil => simp [eraseCell, insertCell, lookupCell]
  | cons c rest ih =>
    obtain ⟨k, u⟩ := c
    by_cases hk : k = a
    · simp [eraseCell, hk, ih]
    · by_cases hlt : a < k <;> simp [eraseCell, insertCell, lookupCell, hk, hlt, ih]

@[simp] theorem Memory.read_write_self (m : Memory) (a : Nat) (v : Word) : (m.write a v).read a = v := by
  by_cases h : v = 0#32
  · simp [Memory.read, putCell, h, lookupCell_eraseCell_self]
  · simp [Memory.read, putCell, h, lookupCell_insertCell_erased]

theorem Memory.read_write_other {a b : Nat} (h : b ≠ a) (m : Memory) (v : Word) :
    (m.write a v).read b = m.read b := by
  by_cases hv : v = 0#32
  · simp [Memory.read, putCell, hv, lookupCell_eraseCell_other h]
  · simp [Memory.read, putCell, hv, lookupCell_insertCell_other h, lookupCell_eraseCell_other h]

/-! ### The canonical form -/

theorem cellsOrdered_cons {hi lo k : Nat} {v : Word} {rest : List (Nat × Word)} :
    cellsOrdered hi lo ((k, v) :: rest) = true ↔
      lo ≤ k ∧ k < hi ∧ v ≠ 0#32 ∧ cellsOrdered hi (k + 1) rest = true := by
  simp [cellsOrdered, and_assoc]

/-- A listing that begins later also begins earlier. -/
theorem cellsOrdered_mono {hi lo lo' : Nat} (h : lo' ≤ lo) {cs : List (Nat × Word)}
    (hc : cellsOrdered hi lo cs = true) : cellsOrdered hi lo' cs = true := by
  cases cs with
  | nil => rfl
  | cons c rest =>
    obtain ⟨k, v⟩ := c
    rw [cellsOrdered_cons] at hc ⊢
    exact ⟨by omega, hc.2⟩

/-- A listing within a shorter memory is one within a longer memory. -/
theorem cellsOrdered_widen {hi hi' : Nat} (h : hi ≤ hi') {cs : List (Nat × Word)} :
    ∀ {lo : Nat}, cellsOrdered hi lo cs = true → cellsOrdered hi' lo cs = true := by
  induction cs with
  | nil => intro _ _; rfl
  | cons c rest ih =>
    obtain ⟨k, v⟩ := c
    intro lo hc
    rw [cellsOrdered_cons] at hc ⊢
    exact ⟨hc.1, by omega, hc.2.2.1, ih hc.2.2.2⟩

theorem cellsOrdered_eraseCell {hi a : Nat} {cs : List (Nat × Word)} :
    ∀ {lo : Nat}, cellsOrdered hi lo cs = true → cellsOrdered hi lo (eraseCell cs a) = true := by
  induction cs with
  | nil => intro _ _; rfl
  | cons c rest ih =>
    obtain ⟨k, v⟩ := c
    intro lo hc
    rw [cellsOrdered_cons] at hc
    by_cases hk : k = a
    · simpa [eraseCell, hk] using ih (cellsOrdered_mono (by omega) hc.2.2.2)
    · simpa [eraseCell, hk] using cellsOrdered_cons.2 ⟨hc.1, hc.2.1, hc.2.2.1, ih hc.2.2.2⟩

/-- An address erased from a listing is in it no more. -/
theorem not_mem_eraseCell (cs : List (Nat × Word)) (a : Nat) (v : Word) : (a, v) ∉ eraseCell cs a := by
  induction cs with
  | nil => simp [eraseCell]
  | cons c rest ih =>
    obtain ⟨k, u⟩ := c
    by_cases hk : k = a
    · simpa [eraseCell, hk] using ih
    · simp [eraseCell, hk, ih, Ne.symm hk]

theorem cellsOrdered_insertCell {hi a : Nat} {v : Word} (ha : a < hi) (hv : v ≠ 0#32) {cs : List (Nat × Word)} :
    ∀ {lo : Nat}, lo ≤ a → (∀ u, (a, u) ∉ cs) → cellsOrdered hi lo cs = true →
      cellsOrdered hi lo (insertCell cs a v) = true := by
  induction cs with
  | nil => intro lo hlo _ _; exact cellsOrdered_cons.2 ⟨hlo, ha, hv, rfl⟩
  | cons c rest ih =>
    obtain ⟨k, u⟩ := c
    intro lo hlo hmem hc
    rw [cellsOrdered_cons] at hc
    have hka : k ≠ a := fun e => hmem u (by simp [e])
    by_cases hlt : a < k
    · simpa [insertCell, hlt] using
        cellsOrdered_cons.2 ⟨hlo, ha, hv, cellsOrdered_cons.2 ⟨by omega, hc.2.1, hc.2.2.1, hc.2.2.2⟩⟩
    · have hrest := ih (lo := k + 1) (by omega) (fun w hw => hmem w (by simp [hw])) hc.2.2.2
      simpa [insertCell, hlt] using cellsOrdered_cons.2 ⟨hc.1, hc.2.1, hc.2.2.1, hrest⟩

/-- A write of an existing cell keeps the canonical form. -/
theorem Memory.wf_write {m : Memory} (h : m.wf = true) {a : Nat} (ha : a < m.size.val) (v : Word) :
    (m.write a v).wf = true := by
  have herase : cellsOrdered m.size.val 0 (eraseCell m.cells a) = true := cellsOrdered_eraseCell h
  by_cases hv : v = 0#32
  · simpa [Memory.wf, putCell, hv] using herase
  · simpa [Memory.wf, putCell, hv] using
      cellsOrdered_insertCell ha hv (Nat.zero_le a) (not_mem_eraseCell m.cells a) herase

@[simp] theorem Memory.writeAll_size (m : Memory) (a : Nat) (ws : List Word) : (m.writeAll a ws).size = m.size := by
  induction ws generalizing m a with
  | nil => rfl
  | cons w ws ih => simp [Memory.writeAll, ih]

/-- Writing consecutive existing cells keeps the canonical form. -/
theorem Memory.wf_writeAll {m : Memory} (h : m.wf = true) {a : Nat} {ws : List Word}
    (ha : a + ws.length ≤ m.size.val) : (m.writeAll a ws).wf = true := by
  induction ws generalizing m a with
  | nil => exact h
  | cons w ws ih =>
    rw [List.length_cons] at ha
    exact ih (Memory.wf_write h (by omega) w) (by rw [Memory.write_size]; omega)

theorem Memory.size_le_extendTo (m : Memory) (n : Nat) : m.size.val ≤ (m.extendTo n).size.val := by
  unfold Memory.extendTo
  split
  · split
    · simp only; omega
    · exact Nat.le_refl _
  · exact Nat.le_refl _

@[simp] theorem Memory.extendTo_cells (m : Memory) (n : Nat) : (m.extendTo n).cells = m.cells := by
  unfold Memory.extendTo
  split
  · split <;> rfl
  · rfl

/-- A supplier's longer memory keeps the canonical form. -/
theorem Memory.wf_extendTo {m : Memory} (h : m.wf = true) (n : Nat) : (m.extendTo n).wf = true := by
  unfold Memory.wf at h ⊢
  rw [Memory.extendTo_cells]
  exact cellsOrdered_widen (m.size_le_extendTo n) h

/-- An image's memory is canonical. -/
theorem Memory.wf_ofImage {image : List Word} {m : Memory} (h : Memory.ofImage image = some m) : m.wf = true := by
  unfold Memory.ofImage at h
  split at h
  · cases h
    exact Memory.wf_writeAll rfl (by simp)
  · cases h

end Sys2Proof.Machine
end

