-- ==== Sys2Proof/Laws/Ops.lean ====
section
/-!
SUPPORT. What each shared operation can answer, said once: access, ports, fetch. Later proofs cite these and do not
unfold the operations.
-/

namespace Sys2Proof.Machine

/-- The range check passes exactly for the addresses of cells (R43, R44). -/
theorem cellIndex_eq_some {s : State} {a : Int} {k : Nat} :
    cellIndex s a = some k ↔ a = (k : Int) ∧ k < s.mem.size.val := by
  unfold cellIndex
  split <;> simp <;> omega

theorem cellIndex_eq_none {s : State} {a : Int} :
    cellIndex s a = none ↔ a < 0 ∨ (s.mem.size.val : Int) ≤ a := by
  unfold cellIndex
  split <;> simp <;> omega

/-- The range check sees the length of memory and nothing else. -/
theorem cellIndex_congr {s t : State} (h : t.mem.size = s.mem.size) (a : Int) : cellIndex t a = cellIndex s a := by
  simp [cellIndex, h]

theorem memRead_eq_some {s : State} {a : Int} {w : Word} :
    memRead s a = some w ↔ ∃ k : Nat, a = (k : Int) ∧ k < s.mem.size.val ∧ s.mem.read k = w := by
  unfold memRead
  cases hc : cellIndex s a with
  | none =>
    rw [cellIndex_eq_none] at hc
    simp only [reduceCtorEq, false_iff, not_exists]
    omega
  | some k =>
    rw [cellIndex_eq_some] at hc
    obtain ⟨rfl, hk⟩ := hc
    simp [hk]

theorem memRead_eq_none {s : State} {a : Int} : memRead s a = none ↔ a < 0 ∨ (s.mem.size.val : Int) ≤ a := by
  rw [← cellIndex_eq_none]
  unfold memRead
  cases cellIndex s a <;> simp

/-- A read sees memory and nothing else of the state. -/
theorem memRead_congr {s t : State} (h : t.mem = s.mem) (a : Int) : memRead t a = memRead s a := by
  simp [memRead, cellIndex, h]

theorem atEnd_eq_false {s : State} : atEnd s = false ↔ s.pc.toNat < s.mem.size.val := by simp [atEnd]

theorem atEnd_eq_true {s : State} : atEnd s = true ↔ s.mem.size.val ≤ s.pc.toNat := by simp [atEnd]

theorem isRunning_eq_true {s : State} : isRunning s = true ↔ s.run = .running := by simp [isRunning]

/-- The four courses of an input request (R131), each with the state it leaves. -/
theorem inputRequest_cases (s : State) :
    (∃ v rest, s.input = .value v :: rest ∧ inputRequest s = (.value v, { s with input := rest })) ∨
    (∃ rest, s.input = .bad :: rest ∧ inputRequest s = (.bad, { s with input := rest })) ∨
    (s.input = [] ∧ s.inputEnded = true ∧ inputRequest s = (.ended, s)) ∨
    (s.input = [] ∧ s.inputEnded = false ∧ inputRequest s = (.waiting, s)) := by
  unfold inputRequest
  rcases s.input with _ | ⟨_ | _, rest⟩ <;> cases s.inputEnded <;> simp

/-- The two outcomes of an emission (R138), each with the state it leaves. -/
theorem outputEmit_cases (s : State) (v : Word) :
    (nextVerdict s = .accepted ∧
      outputEmit s v = (.accepted, { s with output := s.output ++ [v], verdicts := s.verdicts.tail })) ∨
    (nextVerdict s = .rejected ∧ outputEmit s v = (.rejected, { s with verdicts := s.verdicts.tail })) := by
  unfold outputEmit
  cases nextVerdict s <;> simp

/-- Consecutive cells are read exactly when all of them exist (R104). -/
theorem readCells_eq_none {s : State} {a n : Nat} : readCells s a n = none ↔ 0 < n ∧ s.mem.size.val < a + n := by
  induction n generalizing a with
  | zero => simp [readCells]
  | succ n ih =>
    unfold readCells
    cases hm : memRead s (a : Int) with
    | none =>
      rw [memRead_eq_none] at hm
      simp only [true_iff]
      omega
    | some w =>
      obtain ⟨k, hk, hlt, -⟩ := memRead_eq_some.1 hm
      cases hr : readCells s (a + 1) n with
      | none =>
        have := ih.1 hr
        simp only [true_iff]
        omega
      | some ws =>
        have : ¬ (0 < n ∧ s.mem.size.val < a + 1 + n) := fun hn => by rw [ih.2 hn] at hr; cases hr
        simp only [reduceCtorEq, false_iff]
        omega

/-- The cells read stand in order from the first address. -/
theorem readCells_get {s : State} {a n : Nat} {ws : List Word} (h : readCells s a n = some ws) :
    ws.length = n ∧ ∀ k, k < n → memRead s ((a + k : Nat) : Int) = ws[k]? := by
  induction n generalizing a ws with
  | zero => simp [readCells] at h; simp [h]
  | succ n ih =>
    unfold readCells at h
    split at h
    · cases h
    · next w hw =>
      split at h
      · cases h
      · next ws' hws =>
        cases h
        obtain ⟨hlen, hget⟩ := ih hws
        refine ⟨by simp [hlen], fun k hk => ?_⟩
        cases k with
        | zero => simpa using hw
        | succ k =>
          have := hget k (by omega)
          rw [show a + 1 + k = a + (k + 1) by omega] at this
          simpa using this

/-- A read of consecutive cells sees memory and nothing else of the state. -/
theorem readCells_congr {s t : State} (h : t.mem = s.mem) (a n : Nat) : readCells t a n = readCells s a n := by
  induction n generalizing a with
  | zero => rfl
  | succ n ih => simp [readCells, memRead_congr h, ih]

/-- An instruction is built exactly when its parameter words are there. -/
theorem buildInstr_of_length {op : Opcode} {ms : Modes} {ps : List Word} (h : ps.length = opcodeSize op - 1) :
    ∃ i, buildInstr op ms ps = some i ∧ i.size = opcodeSize op ∧ i.modes = ms ∧ i.params = ps := by
  cases op <;> rcases ps with _ | ⟨r1, _ | ⟨r2, _ | ⟨r3, _ | ⟨r4, ps⟩⟩⟩⟩ <;>
    simp [opcodeSize] at h <;>
    simp [buildInstr, opcodeSize, Instr.size, Instr.params, Instr.modes]

/-- What a fetch can answer where a word exists (R102 to R104): a decode failure of that word, `OutOfBounds` for a
missing parameter word, or an instruction whose cells all exist. -/
theorem fetchInstr_cases {s : State} (h : s.pc.toNat < s.mem.size.val) :
    (∃ e, decodeWord (s.mem.read s.pc.toNat) = .error e ∧ fetchInstr s = .error (DecodeError.toFatal e)) ∨
    (∃ op ms, decodeWord (s.mem.read s.pc.toNat) = .ok (op, ms) ∧
      s.mem.size.val < s.pc.toNat + opcodeSize op ∧ fetchInstr s = .error .outOfBounds) ∨
    (∃ op ms ps i, decodeWord (s.mem.read s.pc.toNat) = .ok (op, ms) ∧
      s.pc.toNat + opcodeSize op ≤ s.mem.size.val ∧ readCells s (s.pc.toNat + 1) (opcodeSize op - 1) = some ps ∧
      buildInstr op ms ps = some i ∧ i.size = opcodeSize op ∧ fetchInstr s = .ok i) := by
  have hw : memRead s (s.pc.toNat : Int) = some (s.mem.read s.pc.toNat) :=
    memRead_eq_some.2 ⟨s.pc.toNat, rfl, h, rfl⟩
  cases hd : decodeWord (s.mem.read s.pc.toNat) with
  | error e => exact .inl ⟨e, rfl, by simp [fetchInstr, hw, hd]⟩
  | ok r =>
    obtain ⟨op, ms⟩ := r
    have hpos : 1 ≤ opcodeSize op := by cases op <;> decide
    cases hr : readCells s (s.pc.toNat + 1) (opcodeSize op - 1) with
    | none =>
      have := readCells_eq_none.1 hr
      exact .inr (.inl ⟨op, ms, rfl, by omega, by simp [fetchInstr, hw, hd, hr]⟩)
    | some ps =>
      obtain ⟨hlen, -⟩ := readCells_get hr
      obtain ⟨i, hi, hsize, -, -⟩ := buildInstr_of_length (ms := ms) hlen
      have : ¬ (0 < opcodeSize op - 1 ∧ s.mem.size.val < s.pc.toNat + 1 + (opcodeSize op - 1)) :=
        fun hn => by rw [readCells_eq_none.2 hn] at hr; cases hr
      exact .inr (.inr ⟨op, ms, ps, i, rfl, by omega, hr, hi, hsize, by simp [fetchInstr, hw, hd, hr, hi]⟩)

/-- A fetch sees memory and `PC` and nothing else of the state (R109). -/
theorem fetchInstr_congr {s t : State} (hm : t.mem = s.mem) (hp : t.pc = s.pc) : fetchInstr t = fetchInstr s := by
  unfold fetchInstr
  simp only [memRead_congr hm, readCells_congr hm, hp]

/-- Every instruction fetched lies inside memory (R104). -/
theorem fetchInstr_ok_inside {s : State} {i : Instr} (h : s.pc.toNat < s.mem.size.val) (hf : fetchInstr s = .ok i) :
    s.pc.toNat + i.size ≤ s.mem.size.val := by
  rcases fetchInstr_cases h with ⟨e, -, he⟩ | ⟨op, ms, -, -, he⟩ | ⟨op, ms, ps, j, -, hin, -, -, hsize, he⟩
  · rw [hf] at he; cases he
  · rw [hf] at he; cases he
  · rw [hf] at he; cases he; omega

end Sys2Proof.Machine
end

