-- ==== Sys2Proof/Laws/Operands.lean ====
section
/-!
SUPPORT. What each execution shape and each port instruction can answer, said once: if it answers a next state, one
of these cases holds.
-/

namespace Sys2Proof.Machine

/-- Taking an error is a next state (R188). -/
theorem raised_eq_next {s t : State} {e : FatalError} : raised s e = .next t ↔ t = s.raise e := by
  simp [raised, eq_comm]

/-- A fatal error changes no memory, no `PC` and no port (R188). -/
theorem State.raise_frame (s : State) (e : FatalError) :
    (s.raise e).mem = s.mem ∧ (s.raise e).pc = s.pc ∧ (s.raise e).input = s.input ∧
      (s.raise e).inputEnded = s.inputEnded ∧ (s.raise e).output = s.output ∧ (s.raise e).verdicts = s.verdicts := by
  simp

/-- A source resolves to its raw word, or to the cell it names (R46). -/
theorem resolve_eq_some {s : State} {m : Mode} {r p : Word} :
    resolve s m r = some p ↔ (m = .immediate ∧ r = p) ∨ (m = .position ∧ memRead s r.toInt = some p) := by
  cases m <;> simp [resolve]

theorem resolveTwo_eq_some {s : State} {ms : Modes} {r1 r2 p1 p2 : Word} :
    resolveTwo s ms r1 r2 = some (p1, p2) ↔ resolve s ms.m1 r1 = some p1 ∧ resolve s ms.m2 r2 = some p2 := by
  unfold resolveTwo
  cases resolve s ms.m1 r1 <;> cases resolve s ms.m2 r2 <;> simp

theorem resolveTwo_eq_none {s : State} {ms : Modes} {r1 r2 : Word} :
    resolveTwo s ms r1 r2 = none ↔ resolve s ms.m1 r1 = none ∨ resolve s ms.m2 r2 = none := by
  unfold resolveTwo
  cases resolve s ms.m1 r1 <;> cases resolve s ms.m2 r2 <;> simp

/-- Resolving sees memory and nothing else of the state. -/
theorem resolveTwo_congr {s t : State} (h : t.mem = s.mem) (ms : Modes) (r1 r2 : Word) :
    resolveTwo t ms r1 r2 = resolveTwo s ms r1 r2 := by
  unfold resolveTwo resolve
  cases ms.m1 <;> cases ms.m2 <;> simp [memRead_congr h]

/-- What format F4 can answer. -/
theorem storeResult_cases (f : Word → Word → Word) (ms : Modes) (r1 r2 r3 : Word) (s : State) :
    (storeResult f ms r1 r2 r3 s = raised s .outOfBounds ∧
      (resolveTwo s ms r1 r2 = none ∨ destination s r3 = none)) ∨
    (∃ p1 p2 k, resolveTwo s ms r1 r2 = some (p1, p2) ∧ destination s r3 = some k ∧
      storeResult f ms r1 r2 r3 s = .next ((s.setCell k (f p1 p2)).advance 4)) := by
  unfold storeResult
  cases hr : resolveTwo s ms r1 r2 with
  | none => simp
  | some p =>
    cases hd : destination s r3 with
    | none => simp
    | some k => exact .inr ⟨p.1, p.2, k, rfl, rfl, rfl⟩

/-- What format F3 can answer. -/
theorem jumpWhen_cases (c : Word → Bool) (ms : Modes) (r1 r2 : Word) (s : State) :
    (jumpWhen c ms r1 r2 s = raised s .outOfBounds ∧
      (resolveTwo s ms r1 r2 = none ∨
        ∃ p1 p2, resolveTwo s ms r1 r2 = some (p1, p2) ∧ c p1 = true ∧ p2.toInt < 0)) ∨
    (∃ p1 p2, resolveTwo s ms r1 r2 = some (p1, p2) ∧ c p1 = true ∧ 0 ≤ p2.toInt ∧
      jumpWhen c ms r1 r2 s = .next (s.jump p2)) ∨
    (∃ p1 p2, resolveTwo s ms r1 r2 = some (p1, p2) ∧ c p1 = false ∧
      jumpWhen c ms r1 r2 s = .next (s.advance 3)) := by
  unfold jumpWhen
  cases hr : resolveTwo s ms r1 r2 with
  | none => simp
  | some p =>
    obtain ⟨p1, p2⟩ := p
    cases hc : c p1 with
    | false => simp [hc]
    | true =>
      by_cases hn : p2.toInt < 0
      · simp [hc, hn]
      · exact .inr (.inl ⟨p1, p2, rfl, hc, by omega, by simp [hc, hn]⟩)

/-- What `IN` can answer (R135, R136, R134). -/
theorem execIn_cases (ms : Modes) (r1 : Word) (s : State) :
    (destination s r1 = none ∧ execIn ms r1 s = raised s .outOfBounds) ∨
    (∃ k v rest, destination s r1 = some k ∧ s.input = .value v :: rest ∧
      execIn ms r1 s = .next ((State.setCell { s with input := rest } k v).advance 2)) ∨
    (∃ k rest, destination s r1 = some k ∧ s.input = .bad :: rest ∧
      execIn ms r1 s = raised { s with input := rest } .malformedInput) ∨
    (∃ k, destination s r1 = some k ∧ s.input = [] ∧ s.inputEnded = true ∧
      execIn ms r1 s = raised s .malformedInput) ∨
    (∃ k, destination s r1 = some k ∧ s.input = [] ∧ s.inputEnded = false ∧
      execIn ms r1 s = .fault .awaitingInput) := by
  unfold execIn
  cases hd : destination s r1 with
  | none => simp
  | some k =>
    rcases inputRequest_cases s with ⟨v, rest, hi, hr⟩ | ⟨rest, hi, hr⟩ | ⟨hi, he, hr⟩ | ⟨hi, he, hr⟩
    · simp [hr, hi]
    · simp [hr, hi]
    · simp [hr, hi, he]
    · simp [hr, hi, he]

/-- What `OUT` can answer (R140). -/
theorem execOut_cases (ms : Modes) (r1 : Word) (s : State) :
    (resolve s ms.m1 r1 = none ∧ execOut ms r1 s = raised s .outOfBounds) ∨
    (∃ p1, resolve s ms.m1 r1 = some p1 ∧ nextVerdict s = .accepted ∧
      execOut ms r1 s =
        .next (State.advance { s with output := s.output ++ [p1], verdicts := s.verdicts.tail } 2)) ∨
    (∃ p1, resolve s ms.m1 r1 = some p1 ∧ nextVerdict s = .rejected ∧
      execOut ms r1 s = raised { s with verdicts := s.verdicts.tail } .outputWriteFailure) := by
  unfold execOut
  cases hp : resolve s ms.m1 r1 with
  | none => simp
  | some p1 =>
    rcases outputEmit_cases s p1 with ⟨hv, he⟩ | ⟨hv, he⟩
    · exact .inr (.inl ⟨p1, rfl, hv, by simp [he]⟩)
    · exact .inr (.inr ⟨p1, rfl, hv, by simp [he]⟩)

end Sys2Proof.Machine
end

