-- ==== Sys2Proof/Laws/Step.lean ====
section
/-! SUPPORT. What a step can do, said once. -/

namespace Sys2Proof.Machine

/-- A step that answers a next state is the implicit halt, a fetch failure taken, or an instruction's meaning. -/
theorem step_cases {s t : State} (h : step s = .next t) :
    s.run = .running ∧
    ((s.mem.size.val ≤ s.pc.toNat ∧ t = s.halt) ∨
     (s.pc.toNat < s.mem.size.val ∧ ∃ e, fetchInstr s = .error e ∧ t = s.raise e) ∨
     (s.pc.toNat < s.mem.size.val ∧ ∃ i, fetchInstr s = .ok i ∧ s.pc.toNat + i.size ≤ s.mem.size.val ∧
       exec i s = .next t)) := by
  unfold step at h
  split at h
  · next hr =>
    refine ⟨isRunning_eq_true.1 hr, ?_⟩
    split at h
    · next he => exact .inl ⟨atEnd_eq_true.1 he, by simpa [implicitHalt, eq_comm] using h⟩
    · next he =>
      have hlt := atEnd_eq_false.1 (by simpa using he)
      split at h
      · next e hf => exact .inr (.inl ⟨hlt, e, hf, raised_eq_next.1 h⟩)
      · next i hf => exact .inr (.inr ⟨hlt, i, hf, fetchInstr_ok_inside hlt hf, h⟩)
  · cases h

/-- The other direction: the four ways a step is formed. -/
theorem step_of_ended {s : State} (h : s.run ≠ .running) : step s = .fault .runEnded := by
  simp [step, isRunning, h]

theorem step_of_atEnd {s : State} (hr : s.run = .running) (h : s.mem.size.val ≤ s.pc.toNat) :
    step s = .next s.halt := by
  simp [step, isRunning, hr, atEnd, h, implicitHalt]

theorem step_of_fetch_error {s : State} {e : FatalError} (hr : s.run = .running)
    (h : s.pc.toNat < s.mem.size.val) (hf : fetchInstr s = .error e) : step s = .next (s.raise e) := by
  simp [step, isRunning, hr, atEnd_eq_false.2 h, hf, raised]

theorem step_of_fetch_ok {s : State} {i : Instr} (hr : s.run = .running) (h : s.pc.toNat < s.mem.size.val)
    (hf : fetchInstr s = .ok i) : step s = exec i s := by
  simp [step, isRunning, hr, atEnd_eq_false.2 h, hf]

end Sys2Proof.Machine
end

