-- ==== Sys2Proof/Laws/Exec.lean ====
section
/-!
SUPPORT. Everything an instruction's meaning can answer, said once over all nine, and that it always answers a next
state but for an `IN` that waits. Whole-machine statements follow from this and `step_cases` without unfolding a meaning.
-/

namespace Sys2Proof.Machine

/-- An instruction of format F4, with its parameters (R70). -/
inductive IsF4 : Instr → Modes → Word → Word → Word → Prop where
  | add (ms : Modes) (r1 r2 r3 : Word) : IsF4 (.add ms r1 r2 r3) ms r1 r2 r3
  | mul (ms : Modes) (r1 r2 r3 : Word) : IsF4 (.mul ms r1 r2 r3) ms r1 r2 r3
  | lt (ms : Modes) (r1 r2 r3 : Word) : IsF4 (.lt ms r1 r2 r3) ms r1 r2 r3
  | eq (ms : Modes) (r1 r2 r3 : Word) : IsF4 (.eq ms r1 r2 r3) ms r1 r2 r3

/-- A jump with its parameters and the condition it tests (R150, R151). -/
inductive IsJump : Instr → Modes → Word → Word → (Word → Bool) → Prop where
  | jt (ms : Modes) (r1 r2 : Word) : IsJump (.jt ms r1 r2) ms r1 r2 (fun p => decide (p.toInt ≠ 0))
  | jf (ms : Modes) (r1 r2 : Word) : IsJump (.jf ms r1 r2) ms r1 r2 (fun p => decide (p.toInt = 0))

/-- What a meaning's next state can be. -/
inductive ExecResult (s : State) : Instr → State → Prop where
  /-- a source or the destination of an F4 instruction is outside memory -/
  | f4Fault {i ms r1 r2 r3} (hi : IsF4 i ms r1 r2 r3)
      (h : resolveTwo s ms r1 r2 = none ∨ destination s r3 = none) : ExecResult s i (s.raise .outOfBounds)
  /-- an F4 instruction completes -/
  | stored {i ms r1 r2 r3} (hi : IsF4 i ms r1 r2 r3) {p1 p2 : Word} {k : Nat} (v : Word)
      (hp : resolveTwo s ms r1 r2 = some (p1, p2)) (hk : destination s r3 = some k) :
      ExecResult s i ((s.setCell k v).advance 4)
  /-- a source of a jump is outside memory, or it is taken to a negative target -/
  | jumpFault {i ms r1 r2 c} (hi : IsJump i ms r1 r2 c)
      (h : resolveTwo s ms r1 r2 = none ∨
        ∃ p1 p2, resolveTwo s ms r1 r2 = some (p1, p2) ∧ c p1 = true ∧ p2.toInt < 0) :
      ExecResult s i (s.raise .outOfBounds)
  /-- a jump is taken -/
  | jumped {i ms r1 r2 c} (hi : IsJump i ms r1 r2 c) {p1 p2 : Word} (hp : resolveTwo s ms r1 r2 = some (p1, p2))
      (hc : c p1 = true) (ht : 0 ≤ p2.toInt) : ExecResult s i (s.jump p2)
  /-- a jump is not taken -/
  | fellThrough {i ms r1 r2 c} (hi : IsJump i ms r1 r2 c) {p1 p2 : Word}
      (hp : resolveTwo s ms r1 r2 = some (p1, p2)) (hc : c p1 = false) : ExecResult s i (s.advance 3)
  /-- the destination of `IN` is outside memory -/
  | inFault (ms : Modes) {r1 : Word} (h : destination s r1 = none) : ExecResult s (.inp ms r1) (s.raise .outOfBounds)
  /-- `IN` stores an integer -/
  | inStored (ms : Modes) {r1 : Word} {k : Nat} {v : Word} {rest : List InputAnswer} (hk : destination s r1 = some k)
      (hi : s.input = .value v :: rest) :
      ExecResult s (.inp ms r1) ((State.setCell { s with input := rest } k v).advance 2)
  /-- `IN` meets a bad line -/
  | inBad (ms : Modes) {r1 : Word} {k : Nat} {rest : List InputAnswer} (hk : destination s r1 = some k)
      (hi : s.input = .bad :: rest) :
      ExecResult s (.inp ms r1) (State.raise { s with input := rest } .malformedInput)
  /-- `IN` meets the end of the stream -/
  | inEnded (ms : Modes) {r1 : Word} {k : Nat} (hk : destination s r1 = some k) (hi : s.input = [])
      (he : s.inputEnded = true) : ExecResult s (.inp ms r1) (s.raise .malformedInput)
  /-- the source of `OUT` is outside memory -/
  | outFault (ms : Modes) {r1 : Word} (h : resolve s ms.m1 r1 = none) :
      ExecResult s (.out ms r1) (s.raise .outOfBounds)
  /-- `OUT` is accepted -/
  | emitted (ms : Modes) {r1 p1 : Word} (hp : resolve s ms.m1 r1 = some p1) (hv : nextVerdict s = .accepted) :
      ExecResult s (.out ms r1)
        (State.advance { s with output := s.output ++ [p1], verdicts := s.verdicts.tail } 2)
  /-- `OUT` is rejected -/
  | outRejected (ms : Modes) {r1 p1 : Word} (hp : resolve s ms.m1 r1 = some p1) (hv : nextVerdict s = .rejected) :
      ExecResult s (.out ms r1) (State.raise { s with verdicts := s.verdicts.tail } .outputWriteFailure)
  /-- `HLT` -/
  | halted (ms : Modes) : ExecResult s (.hlt ms) (s.advance 1).halt

theorem storeResult_result {f : Word → Word → Word} {i : Instr} {ms : Modes} {r1 r2 r3 : Word}
    (hi : IsF4 i ms r1 r2 r3) (s : State) :
    ∃ t, storeResult f ms r1 r2 r3 s = .next t ∧ ExecResult s i t := by
  rcases storeResult_cases f ms r1 r2 r3 s with ⟨he, h⟩ | ⟨p1, p2, k, hp, hk, he⟩
  · exact ⟨_, he, .f4Fault hi h⟩
  · exact ⟨_, he, .stored hi _ hp hk⟩

theorem jumpWhen_result {c : Word → Bool} {i : Instr} {ms : Modes} {r1 r2 : Word} (hi : IsJump i ms r1 r2 c)
    (s : State) : ∃ t, jumpWhen c ms r1 r2 s = .next t ∧ ExecResult s i t := by
  rcases jumpWhen_cases c ms r1 r2 s with ⟨he, h⟩ | ⟨p1, p2, hp, hc, ht, he⟩ | ⟨p1, p2, hp, hc, he⟩
  · exact ⟨_, he, .jumpFault hi h⟩
  · exact ⟨_, he, .jumped hi hp hc ht⟩
  · exact ⟨_, he, .fellThrough hi hp hc⟩

/-- The instruction is an `IN` that waits (R134): a good destination, no answer, an open stream. -/
def WaitsAt (s : State) (i : Instr) : Prop :=
  ∃ ms r1 k, i = .inp ms r1 ∧ destination s r1 = some k ∧ s.input = [] ∧ s.inputEnded = false

/-- Every instruction answers a next state, one of those listed, unless it is an `IN` that waits. -/
theorem exec_result (i : Instr) (s : State) :
    (∃ t, exec i s = .next t ∧ ExecResult s i t) ∨ (WaitsAt s i ∧ exec i s = .fault .awaitingInput) := by
  cases i with
  | add ms r1 r2 r3 => exact .inl (storeResult_result (.add ms r1 r2 r3) s)
  | mul ms r1 r2 r3 => exact .inl (storeResult_result (.mul ms r1 r2 r3) s)
  | lt ms r1 r2 r3 => exact .inl (storeResult_result (.lt ms r1 r2 r3) s)
  | eq ms r1 r2 r3 => exact .inl (storeResult_result (.eq ms r1 r2 r3) s)
  | jt ms r1 r2 => exact .inl (jumpWhen_result (.jt ms r1 r2) s)
  | jf ms r1 r2 => exact .inl (jumpWhen_result (.jf ms r1 r2) s)
  | hlt ms => exact .inl ⟨_, rfl, .halted ms⟩
  | inp ms r1 =>
    rcases execIn_cases ms r1 s with ⟨h, he⟩ | ⟨k, v, rest, hk, hi, he⟩ | ⟨k, rest, hk, hi, he⟩ | ⟨k, hk, hi, hn, he⟩ |
      ⟨k, hk, hi, hn, he⟩
    · exact .inl ⟨_, he, .inFault ms h⟩
    · exact .inl ⟨_, he, .inStored ms hk hi⟩
    · exact .inl ⟨_, he, .inBad ms hk hi⟩
    · exact .inl ⟨_, he, .inEnded ms hk hi hn⟩
    · exact .inr ⟨⟨ms, r1, k, rfl, hk, hi, hn⟩, he⟩
  | out ms r1 =>
    rcases execOut_cases ms r1 s with ⟨h, he⟩ | ⟨p1, hp, hv, he⟩ | ⟨p1, hp, hv, he⟩
    · exact .inl ⟨_, he, .outFault ms h⟩
    · exact .inl ⟨_, he, .emitted ms hp hv⟩
    · exact .inl ⟨_, he, .outRejected ms hp hv⟩

/-- The inversion: a meaning's next state is one of those listed. -/
theorem exec_inv {i : Instr} {s t : State} (h : exec i s = .next t) : ExecResult s i t := by
  rcases exec_result i s with ⟨u, hu, hr⟩ | ⟨-, hu⟩ <;> rw [hu] at h <;> cases h
  exact hr

/-- The size of the instruction in the two families. -/
theorem IsF4.size {i : Instr} {ms : Modes} {r1 r2 r3 : Word} (h : IsF4 i ms r1 r2 r3) : i.size = 4 := by
  cases h <;> rfl

theorem IsJump.size {i : Instr} {ms : Modes} {r1 r2 : Word} {c : Word → Bool} (h : IsJump i ms r1 r2 c) :
    i.size = 3 := by
  cases h <;> rfl

end Sys2Proof.Machine
end

