-- ==== Sys2Proof/Laws/PerInstr.lean ====
section
/-!
SUPPORT. The family `Shape`: an instruction as syntax. Its fields pass the decoder's checks (R79 to R81), its
encoding is as long as its size (R70), and its size is the one R77 gives its opcode.
-/

namespace Sys2Proof.Laws

/-- An instruction is well formed, and its encoding, its size and its opcode's size agree (R70, R76, R77). -/
def Shape.Statement (i : Instr) : Prop :=
  i.wellFormed = true ∧ (encode i).length = i.size ∧
    ∃ op, opcodeOfNumber i.opcodeNumber = some op ∧ opcodeSize op = i.size

/-- An instruction with a known opcode is well formed: the digits of its modes always pass R80. -/
theorem wellFormed_of_known (i : Instr) (h : knownOpcodes.contains i.opcodeNumber = true) : i.wellFormed = true := by
  simp only [Instr.wellFormed, Digits.wellFormed, Digits.opcodeKnown, Digits.modesLegal, Instr.digits, h,
    Mode.digit_lt_two, decide_true, Bool.and_true]

theorem Shape.add (ms : Modes) (r1 r2 r3 : Word) : Shape.Statement (.add ms r1 r2 r3) :=
  ⟨wellFormed_of_known _ rfl, rfl, .add, rfl, rfl⟩

theorem Shape.mul (ms : Modes) (r1 r2 r3 : Word) : Shape.Statement (.mul ms r1 r2 r3) :=
  ⟨wellFormed_of_known _ rfl, rfl, .mul, rfl, rfl⟩

theorem Shape.inp (ms : Modes) (r1 : Word) : Shape.Statement (.inp ms r1) :=
  ⟨wellFormed_of_known _ rfl, rfl, .inp, rfl, rfl⟩

theorem Shape.out (ms : Modes) (r1 : Word) : Shape.Statement (.out ms r1) :=
  ⟨wellFormed_of_known _ rfl, rfl, .out, rfl, rfl⟩

theorem Shape.jt (ms : Modes) (r1 r2 : Word) : Shape.Statement (.jt ms r1 r2) :=
  ⟨wellFormed_of_known _ rfl, rfl, .jt, rfl, rfl⟩

theorem Shape.jf (ms : Modes) (r1 r2 : Word) : Shape.Statement (.jf ms r1 r2) :=
  ⟨wellFormed_of_known _ rfl, rfl, .jf, rfl, rfl⟩

theorem Shape.lt (ms : Modes) (r1 r2 r3 : Word) : Shape.Statement (.lt ms r1 r2 r3) :=
  ⟨wellFormed_of_known _ rfl, rfl, .lt, rfl, rfl⟩

theorem Shape.eq (ms : Modes) (r1 r2 r3 : Word) : Shape.Statement (.eq ms r1 r2 r3) :=
  ⟨wellFormed_of_known _ rfl, rfl, .eq, rfl, rfl⟩

theorem Shape.hlt (ms : Modes) : Shape.Statement (.hlt ms) :=
  ⟨wellFormed_of_known _ rfl, rfl, .hlt, rfl, rfl⟩

end Sys2Proof.Laws
end

