-- ==== Sys2Proof/Laws/Run.lean ====
section
/-! SUPPORT. The induction over a run, packaged once: what every step keeps, every run keeps (R110). -/

namespace Sys2Proof.Machine

theorem run_keeps (M : Host.Core) {P : M.State → Prop} (hstep : ∀ s t, P s → M.step s = .next t → P t) (k : Nat)
    (s t : M.State) (hs : P s) (h : M.run k s = .next t) : P t := by
  induction k generalizing s with
  | zero =>
    cases h
    exact hs
  | succ k ih =>
    unfold Host.Core.run at h
    split at h
    · next s' hn => exact ih s' (hstep s s' hs hn) h
    · cases h
    · cases h

/-- The machine of this package: an invariant of `step` is one of its runs. -/
theorem core_run_keeps {P : State → Prop} (hstep : ∀ s t, P s → step s = .next t → P t) (k : Nat) (s t : State)
    (hs : P s) (h : Host.Core.run core k s = .next t) : P t :=
  run_keeps core (P := P) hstep k s t hs h

end Sys2Proof.Machine
end

