-- ==== Sys2Proof/Tests/Slice0.lean ====
section
/-!
SUPPORT. Tests, and for each obligation with hypotheses a witness that meets them.

Expected values come from spec/95_test_vectors.md (the vector's name stands in the docstring) or are worked out by hand
from the rule named there. A test is of one step, on a small machine built from an image.
-/

namespace Sys2Proof.Tests

open Sys2Proof Sys2Proof.Machine Sys2Proof.Claims

/-! ### Helpers -/

/-- A machine over an image: its input answers, whether the stream ends after them, its sink's verdicts. -/
def machine (image : List Word) (answers : List InputAnswer := []) (ended : Bool := false)
    (verdicts : List Verdict := []) : State :=
  match construct image answers ended verdicts with
  | some s => s
  | none => State.reset

/-- The state one step later, if there is one. -/
def after (s : State) : Option State :=
  match step s with
  | .next t => some t
  | .fault _ => none
  | .refused _ => none

/-- The cells of a machine from address 0. -/
def cellsFrom (s : State) (n : Nat) : List Word := (List.range n).map s.mem.read

/-- What a one-step test looks at: `RUN`, `CAUSE`, `PC` and the first `n` cells. -/
def seen (n : Nat) (s : State) : Option (RunState × Cause × Nat × List Word) :=
  (after s).map (fun t => (t.run, t.cause, t.pc.toNat, cellsFrom t n))

/-- The same machine at another `PC`. -/
def atPc (s : State) (a : Nat) : State := { s with pc := BitVec.ofNat 32 a }

/-- Modes by their digits, 0 and 1 (R74). -/
def modes (a b c : Nat) : Modes :=
  let m (d : Nat) : Mode := if d = 0 then .position else .immediate
  ⟨m a, m b, m c⟩

/-! ### Well-formedness: each check refuses an ill-formed term -/

theorem test_wellFormed_accepts : (⟨8, 1, 1, 0⟩ : Digits).wellFormed = true := by decide

theorem test_wellFormed_refuses_opcode_nine : (⟨9, 0, 0, 0⟩ : Digits).opcodeKnown = false ∧
    (⟨9, 0, 0, 0⟩ : Digits).wellFormed = false := by decide

theorem test_wellFormed_refuses_first_digit : (⟨1, 2, 0, 0⟩ : Digits).modesLegal = false ∧
    (⟨1, 2, 0, 0⟩ : Digits).wellFormed = false := by decide

theorem test_wellFormed_refuses_second_digit : (⟨2, 0, 2, 0⟩ : Digits).modesLegal = false ∧
    (⟨2, 0, 2, 0⟩ : Digits).wellFormed = false := by decide

theorem test_wellFormed_refuses_third_digit : (⟨99, 0, 0, 3⟩ : Digits).modesLegal = false ∧
    (⟨99, 0, 0, 3⟩ : Digits).wellFormed = false := by decide

/-! ### Decoding: words written out from R71 and R76, `C B A O O` -/

/-- `1 0 0 01`: V-DEC 10001. -/
theorem test_decode_add : decode [10001#32, 5#32, 6#32, 7#32] = .ok (.add (modes 0 0 1) 5#32 6#32 7#32) := by decide

/-- `0 1 0 02`: V-DEC 1002. -/
theorem test_decode_mul : decode [1002#32, 21#32, 125#32, 20#32] = .ok (.mul (modes 0 1 0) 21#32 125#32 20#32) := by
  decide

/-- `0 0 1 03`: V-DEC 103. -/
theorem test_decode_in : decode [103#32, 5#32] = .ok (.inp (modes 1 0 0) 5#32) := by decide

/-- `0 0 1 04`: V-DEC 104. -/
theorem test_decode_out : decode [104#32, (-5 : Word)] = .ok (.out (modes 1 0 0) (-5)) := by decide

/-- `0 1 0 05`: V-DEC 1005. -/
theorem test_decode_jt : decode [1005#32, 20#32, 22#32] = .ok (.jt (modes 0 1 0) 20#32 22#32) := by decide

/-- `0 1 1 06`: V-DEC 1106. -/
theorem test_decode_jf : decode [1106#32, 0#32, 36#32] = .ok (.jf (modes 1 1 0) 0#32 36#32) := by decide

/-- `0 0 1 07`: V-DEC 107. -/
theorem test_decode_lt : decode [107#32, 8#32, 21#32, 20#32] = .ok (.lt (modes 1 0 0) 8#32 21#32 20#32) := by decide

/-- `0 1 1 08`: V-DEC 1108. -/
theorem test_decode_eq : decode [1108#32, 8#32, 9#32, 3#32] = .ok (.eq (modes 1 1 0) 8#32 9#32 3#32) := by decide

/-- `1 1 1 99`, then digits that are not examined (R75): V-DEC 11199, 2147400099. -/
theorem test_decode_hlt : decode [11199#32] = .ok (.hlt (modes 1 1 1)) ∧
    decode [2147400099#32] = .ok (.hlt (modes 0 0 0)) := by decide

/-- V-DEC: the rows that are `InvalidOpcode`. -/
theorem test_decode_invalid_opcode : ([0, 9, 10, 98, 100, 2147483647, -1, -99, 200, 1250] : List Word).all
    (fun w => decide (decodeWord w = .error .invalidOpcode)) = true := by decide

/-- V-DEC: the rows that are `InvalidParameterMode`. -/
theorem test_decode_invalid_mode : ([201, 2002, 20001, 203, 299, 2099, 30099, 90104] : List Word).all
    (fun w => decide (decodeWord w = .error .invalidParameterMode)) = true := by decide

/-- V-PRI-3, V-PRI-5: a missing parameter word is found after the mode digits. -/
theorem test_decode_missing : decode [1#32] = .error .missingWord ∧ decode [20001#32] = .error .invalidParameterMode := by
  decide

/-- R71 read backwards: `OUT #999` is `104,999`, and `JT #1, #46` is `1105,1,46`. -/
theorem test_encode : encode (.out (modes 1 0 0) 999#32) = [104#32, 999#32] ∧
    encode (.jt (modes 1 1 0) 1#32 46#32) = [1105#32, 1#32, 46#32] := by decide

/-- The opcode table's numbering (log 8): the second cell is bits 63..32. -/
theorem test_decode_table_word : decodeTableWord 64 (104 + 999 * 2 ^ 32) = some (.out (modes 1 0 0) 999#32) ∧
    decodeTableWord 32 99 = some (.hlt (modes 0 0 0)) ∧ decodeTableWord 32 (2 ^ 32 - 99) = none := by decide

/-- An instruction of each size runs as the first one after reset: V-DEC 8, 104, 1106, 99 with zero operands. -/
theorem test_first_instruction_runs :
    (after (State.reset.withFetchWord 32 8)).map (fun t => (t.pc.toNat, t.mem.read 0)) = some (4, 1#32) ∧
    (after (State.reset.withFetchWord 32 104)).map (fun t => (t.pc.toNat, t.output)) = some (2, [0#32]) ∧
    (after (State.reset.withFetchWord 96 (1106 + 7 * 2 ^ 64))).map (fun t => t.pc.toNat) = some 7 ∧
    (after (State.reset.withFetchWord 32 99)).map (fun t => (t.pc.toNat, t.run)) = some (1, .halted) := by decide

/-! ### One step of each instruction -/

/-- V-ADD-2: the sum wraps. -/
theorem test_add_wraps : seen 5 (machine [1101, 2147483647, 1, 0, 99]) =
    some (.running, .none, 4, [-2147483648, 2147483647, 1, 0, 99]) := by decide

/-- V-ADD-6: `m3 = 1` is ignored, and the destination is the raw word. -/
theorem test_add_destination_is_raw : seen 8 (machine [10001, 5, 6, 7, 99, 20, 22, 0]) =
    some (.running, .none, 4, [10001, 5, 6, 7, 99, 20, 22, 42]) := by decide

/-- V-MUL-7: the smallest positive square that overflows. -/
theorem test_mul_wraps : seen 5 (machine [1102, 46341, 46341, 0, 99]) =
    some (.running, .none, 4, [-2147479015, 46341, 46341, 0, 99]) := by decide

/-- V-MUL-3: mixed signs. -/
theorem test_mul_signs : seen 5 (machine [1102, -7, 6, 0, 99]) = some (.running, .none, 4, [-42, -7, 6, 0, 99]) := by
  decide

/-- V-IN-2: `m1 = 1` is ignored; one answer is consumed. V-IN-11: with the stream open and no line there is no step,
and once a line has come there is one (R134). -/
theorem test_in_stores_and_waits : (after (machine [103, 0, 99] [.value 5, .bad])).map
    (fun t => (t.pc.toNat, cellsFrom t 3, t.input)) = some (2, [5, 0, 99], [.bad]) ∧
    after (machine [3, 0, 99]) = none ∧
    (after ((machine [3, 0, 99]).supplyAnswer (.value 6))).map (fun t => (t.pc.toNat, cellsFrom t 1)) = some (2, [6]) := by
  decide

/-- V-IN-6 and V-IN-7: a bad line is consumed, and a bad destination consumes nothing. -/
theorem test_in_faults :
    (after (machine [3, 0, 99] [.bad, .value 4])).map (fun t => (t.run, t.cause, t.pc.toNat, t.input)) =
      some (.faulted, .malformedInput, 0, [.value 4]) ∧
    (after (machine [3, 5, 99] [.value 5])).map (fun t => (t.run, t.cause, t.pc.toNat, t.input)) =
      some (.faulted, .outOfBounds, 0, [.value 5]) := by decide

/-- V-OUT-2: an immediate is emitted as it is (C1). -/
theorem test_out_immediate : (after (machine [104, 3, 99, 42])).map (fun t => (t.pc.toNat, t.output)) =
    some (2, [3]) := by decide

/-- V-OUT-7, its second step: a rejected token is not in the log. -/
theorem test_out_rejected : (after { atPc (machine [104, 1, 104, 2, 99] [] false [.rejected]) 2 with output := [1] }).map
    (fun t => (t.run, t.cause, t.pc.toNat, t.output)) = some (.faulted, .outputWriteFailure, 2, [1]) := by decide

/-- V-JMP-3: a negative condition is true. -/
theorem test_jt_negative_is_true : seen 0 (machine [1105, -3, 4, 99, 104, 7, 99]) = some (.running, .none, 4, []) := by
  decide

/-- V-JMP-13: the target of a jump not taken is resolved all the same; V-JMP-11: a negative target. -/
theorem test_jt_faults : seen 0 (machine [5, 4, 9, 99, 0]) = some (.faulted, .outOfBounds, 0, []) ∧
    seen 0 (machine [1105, 1, -1]) = some (.faulted, .outOfBounds, 0, []) := by decide

/-- V-JMP-6: an indirect target. -/
theorem test_jf_indirect : seen 0 (machine [6, 3, 4, 0, 6, 99, 104, 1, 99]) = some (.running, .none, 6, []) := by decide

/-- V-JMP-5: not taken. -/
theorem test_jf_falls_through : seen 0 (machine [1106, 5, 4, 99, 104, 7, 99]) = some (.running, .none, 3, []) := by decide

/-- V-CMP-3: no wrap-around in the comparison. -/
theorem test_lt_is_exact : seen 2 (machine [1107, 2147483647, -2147483648, 0, 99]) =
    some (.running, .none, 4, [0, 2147483647]) := by decide

/-- V-CMP-1: signed. -/
theorem test_lt_is_signed : seen 2 (machine [1107, -1, 0, 0, 99]) = some (.running, .none, 4, [1, -1]) := by decide

/-- V-CMP-8: the same cell twice. -/
theorem test_eq_same_cell : seen 4 (machine [8, 0, 0, 0, 99]) = some (.running, .none, 4, [1, 0, 0, 0]) := by decide

/-- V-CMP-7. -/
theorem test_eq_signs_differ : seen 2 (machine [1108, 5, -5, 0, 99]) = some (.running, .none, 4, [0, 5]) := by decide

/-- V-HLT-1, and the word 11199. -/
theorem test_hlt : seen 2 (machine [99, 1, 2, 3]) = some (.halted, .none, 1, [99, 1]) ∧
    seen 1 (machine [11199]) = some (.halted, .none, 1, [11199]) := by decide

/-! ### The loop, the ports and the host -/

/-- V-END-4: the empty memory; V-PRI-1: a mode error in a one-cell memory. -/
theorem test_ends : seen 0 State.reset = some (.halted, .none, 0, []) ∧
    seen 0 (machine [299]) = some (.faulted, .invalidParameterMode, 0, []) := by decide

/-- R139: the lines of R139's examples and of V-OUT-3. -/
theorem test_output_text : outputText [1, -5, 1000] = "1\n-5\n1000\n".toList := by decide

/-- R132, R133: a numeral, the smallest one, one too large, the empty line, two numbers. -/
theorem test_parse_line :
    parseLine ⟨false, false, false, false⟩ "-7".toList = .value (-7) ∧
    parseLine ⟨false, false, false, false⟩ "-2147483648".toList = .value (-2147483648) ∧
    parseLine ⟨true, true, true, true⟩ "2147483648".toList = .bad ∧
    parseLine ⟨true, true, true, true⟩ [] = .bad ∧ parseLine ⟨true, true, true, true⟩ "1 2".toList = .bad := by decide

/-- R132: what the adapter chooses is honoured. -/
theorem test_parse_line_options :
    parseLine ⟨true, true, true, true⟩ " +007 \r".toList = .value 7 ∧
    parseLine ⟨false, true, true, true⟩ "+7".toList = .bad ∧ parseLine ⟨true, false, true, true⟩ "07".toList = .bad ∧
    parseLine ⟨true, true, false, true⟩ " 7".toList = .bad ∧ parseLine ⟨true, true, true, false⟩ "7\r".toList = .bad := by
  decide

/-! ### Witnesses: values that meet the hypotheses of each obligation

Each stands for the obligation named in it, with one clause for each of the obligation's, at a boundary where there is
one. An obligation without hypotheses has none.
-/

/-- A digit 2 to 9 in slot `k`. -/
theorem badDigit_of {w : Word} (k : Nat) (hk : k ∈ [2, 3, 4]) (h : 2 ≤ w.toNat / 10 ^ k % 10) : BadDigit w := ⟨k, hk, h⟩

/-- No digit is 2 to 9 when the three are not. -/
theorem not_badDigit_of {w : Word} (h2 : w.toNat / 10 ^ 2 % 10 < 2) (h3 : w.toNat / 10 ^ 3 % 10 < 2)
    (h4 : w.toNat / 10 ^ 4 % 10 < 2) : ¬ BadDigit w := by
  rintro ⟨k, hk, h⟩
  simp only [List.mem_cons, List.not_mem_nil, or_false] at hk
  rcases hk with rfl | rfl | rfl <;> omega

/-- An address inside memory. -/
theorem not_outside_of {s : State} {a : Int} (h : 0 ≤ a) (h' : a < (s.mem.size.val : Int)) : ¬ Outside s a := by
  unfold Outside
  omega

theorem witness_DecodeEncodeRoundTrip :
    (Instr.jf (modes 1 1 1) 0 (-2147483648)).wellFormed = true ∧ (Instr.hlt (modes 1 1 1)).wellFormed = true := by
  decide

theorem witness_DecodedCellsReencode : decode [2147411101#32, 1, 2, 3, 4] = .ok (.add (modes 1 1 1) 1 2 3) := by decide

theorem witness_DecoderFailuresInOrder :
    ((-1 : Word).toInt < 0 ∨ (-1 : Word).toNat % 100 ∉ opcodes) ∧ (200#32).toNat % 100 ∉ opcodes ∧
    (0 ≤ (29999 : Word).toInt ∧ (29999 : Word).toNat % 100 ∈ opcodes ∧ BadDigit 29999) ∧
    (0 ≤ (11199 : Word).toInt ∧ (11199 : Word).toNat % 100 ∈ opcodes ∧ ¬ BadDigit 11199) :=
  ⟨by decide, by decide, ⟨by decide, by decide, badDigit_of 4 (by decide) (by decide)⟩,
    by decide, by decide, not_badDigit_of (by decide) (by decide) (by decide)⟩

theorem witness_DecodedFieldsAreDecimalDigits : decodeWord 11108 = .ok (.eq, modes 1 1 1) := by decide

theorem witness_OpcodeMapAndSizes :
    decode [100004#32, -1] = .ok (.out (modes 0 0 0) (-1)) ∧
    (0 ≤ (1106 : Word).toInt ∧ (1106 : Word).toNat % 100 ∈ opcodes ∧ ¬ BadDigit 1106 ∧
      cellsOf ((1106 : Word).toNat % 100) ≤ ([0, 36] : List Word).length + 1) :=
  ⟨by decide, by decide, by decide, not_badDigit_of (by decide) (by decide) (by decide), by decide⟩

theorem witness_HighDigitsAreIgnored :
    0 ≤ (99 : Word).toInt ∧ 0 ≤ (2147400099 : Word).toInt ∧
    (99 : Word).toNat % 100000 = (2147400099 : Word).toNat % 100000 := by decide

theorem witness_StepRunsDecodedInstruction :
    (machine [99]).run = .running ∧ decode [99#32] = .ok (.hlt (modes 0 0 0)) ∧
    ∀ k, k < (Instr.hlt (modes 0 0 0)).size →
      memRead (machine [99]) (((machine [99]).pc.toNat + k : Nat) : Int) = [99#32][k]? := by
  refine ⟨by decide, by decide, fun k hk => ?_⟩
  obtain rfl : k = 0 := Nat.lt_one_iff.1 hk
  decide

theorem witness_DecodeErrorsAreTaken :
    (AtWord (machine [-99]) (-99) ∧ ((-99 : Word).toInt < 0 ∨ (-99 : Word).toNat % 100 ∉ opcodes)) ∧
    (AtWord (machine [299]) 299 ∧ 0 ≤ (299 : Word).toInt ∧ (299 : Word).toNat % 100 ∈ opcodes ∧ BadDigit 299) :=
  ⟨⟨⟨by decide, by decide⟩, by decide⟩, ⟨by decide, by decide⟩, by decide, by decide,
    badDigit_of 2 (by decide) (by decide)⟩

/-- The last parameter word missing (V-OOB-4), and the last one present. -/
theorem witness_TruncatedInstructionFaults :
    (AtWord (machine [1, 0, 0]) 1 ∧ 0 ≤ (1 : Word).toInt ∧ (1 : Word).toNat % 100 ∈ opcodes ∧ ¬ BadDigit 1 ∧
      (machine [1, 0, 0]).mem.size.val < (machine [1, 0, 0]).pc.toNat + cellsOf ((1 : Word).toNat % 100)) ∧
    AtWord (machine [1, 0, 0, 0]) 1 ∧ fetchInstr (machine [1, 0, 0, 0]) = .ok (.add (modes 0 0 0) 0 0 0) :=
  ⟨⟨⟨by decide, by decide⟩, by decide, by decide, not_badDigit_of (by decide) (by decide) (by decide), by decide⟩,
    ⟨by decide, by decide⟩, by decide⟩

/-- At exactly `N`, past `N`, and in the empty memory. -/
theorem witness_ImplicitHaltAtLoopHead :
    ((atPc (machine [99]) 1).run = .running ∧ (atPc (machine [99]) 1).mem.size.val ≤ (atPc (machine [99]) 1).pc.toNat) ∧
    (atPc (machine [99]) 100).mem.size.val ≤ (atPc (machine [99]) 100).pc.toNat ∧
    State.reset.run = .running ∧ State.reset.mem.size.val ≤ State.reset.pc.toNat := by decide

theorem witness_EndedRunTakesNoStep : (State.reset.halt).run = .halted ∧ (State.reset.raise .outOfBounds).run = .faulted := by
  decide

/-- A machine waiting for its first line (V-IN-11). -/
theorem machine_waits : (machine [3, 0, 99]).Waiting :=
  ⟨by decide, by decide, by decide, by decide, modes 0 0 0, 0, by decide, by decide, by decide⟩

/-- A running machine that is not waiting, for want of an `IN`; a waiting one; an ended one. -/
theorem witness_StepExistsUnlessWaitingOrEnded :
    ((machine [0]).run = .running ∧ ¬ (machine [0]).Waiting) ∧ (machine [3, 0, 99]).Waiting ∧
    (machine [0]).halt.run ≠ .running := by
  refine ⟨⟨by decide, ?_⟩, machine_waits, by decide⟩
  rintro ⟨-, -, -, -, ms, r1, h, -, -⟩
  have e : fetchInstr (machine [0]) = .error .invalidOpcode := by decide
  rw [e] at h
  cases h

/-- V-JMP-16. -/
theorem witness_OnlySelfJumpStandsStill : step (machine [1105, 1, 0]) = .next (machine [1105, 1, 0]) := rfl

theorem witness_WaitIsLiftedByAnswer : (machine [3, 0, 99]).Waiting := machine_waits

theorem fetch_halt : fetchInstr (machine [99]) = .ok (.hlt (modes 0 0 0)) := by decide

/-- The implicit halt; a fault; an advance to exactly `N`; a taken jump past `N` to the largest target (V-JMP-9). -/
theorem witness_PcChangesByTheList :
    (step State.reset = .next State.reset.halt ∧ State.reset.mem.size.val ≤ State.reset.pc.toNat) ∧
    step (machine [0]) = .next ((machine [0]).raise .invalidOpcode) ∧
    (∃ t, step (machine [99]) = .next t ∧ (machine [99]).pc.toNat < (machine [99]).mem.size.val ∧
      fetchInstr (machine [99]) = .ok (.hlt (modes 0 0 0)) ∧ t.run ≠ .faulted) ∧
    (∃ t, step (machine [1105, 1, 2147483647]) = .next t ∧ (machine [1105, 1, 2147483647]).mem.size.val < t.pc.toNat) := by
  exact ⟨⟨rfl, by decide⟩, rfl, ⟨_, rfl, by decide, by decide, by decide⟩, _, rfl, by decide⟩

theorem witness_StepKeepsInvariant : State.reset.Inv ∧ step State.reset = .next State.reset.halt :=
  ⟨⟨by decide, by decide, by decide⟩, rfl⟩

theorem witness_ResetMeetsInvariant : construct [99] [.bad] true [.rejected] = some (machine [99] [.bad] true [.rejected]) :=
  rfl

theorem witness_StepKeepsMemoryLength : ∃ t, step (machine [1101, 1, 1, 3]) = .next t := ⟨_, rfl⟩

/-- V-IN-6 and a rejected first emission. -/
theorem witness_FaultsArePrecise :
    (∃ t, step (machine [3, 0, 99] [.bad]) = .next t ∧ t.run = .faulted) ∧
    ∃ t, step (machine [104, 1, 99] [] false [.rejected]) = .next t ∧ t.run = .faulted :=
  ⟨⟨_, rfl, by decide⟩, _, rfl, by decide⟩

theorem witness_OutOfBoundsExactlyFour : (machine [1105, 1, -1]).run = .running := by decide

theorem witness_PortErrorsOnlyByPortInstructions : (machine [3, 0, 99] [] true).run = .running := by decide

theorem witness_OnlyInTouchesInput :
    (∀ ms r1, fetchInstr (machine [99]) ≠ .ok (.inp ms r1)) ∧ ∃ t, step (machine [99]) = .next t := by
  refine ⟨fun ms r1 h => ?_, _, rfl⟩
  rw [fetch_halt] at h
  cases h

theorem witness_OutputLogIsWriteOnly : ∃ t, step (machine [104, 7]) = .next t := ⟨_, rfl⟩

/-- An `OUT` that completes; one that faults; the end of memory; another instruction. -/
theorem witness_OneTokenPerOut :
    (∃ t, step (machine [104, 7]) = .next t ∧ (machine [104, 7]).pc.toNat < (machine [104, 7]).mem.size.val ∧
      fetchInstr (machine [104, 7]) = .ok (.out (modes 1 0 0) 7) ∧ t.run ≠ .faulted) ∧
    (∃ t, step (machine [4, 7]) = .next t ∧ t.run = .faulted) ∧
    (∃ t, step State.reset = .next t ∧ State.reset.mem.size.val ≤ State.reset.pc.toNat) ∧
    (∃ t, step (machine [99]) = .next t ∧ ∀ ms r1, fetchInstr (machine [99]) ≠ .ok (.out ms r1)) := by
  refine ⟨⟨_, rfl, by decide, by decide, by decide⟩, ⟨_, rfl, by decide⟩, ⟨_, rfl, by decide⟩, _, rfl, fun ms r1 h => ?_⟩
  rw [fetch_halt] at h
  cases h

/-- Below the first cell, at `N`, and the last cell. -/
theorem witness_MemWriteChangesOneCell :
    Outside (machine [1, 2]) (-1) ∧ Outside (machine [1, 2]) 2 ∧ ¬ Outside (machine [1, 2]) 1 :=
  ⟨.inl (by decide), .inr (by decide), not_outside_of (by decide) (by decide)⟩

theorem witness_CanonicalMemoryIsDetermined :
    let m : Memory := ⟨2, [(1, 5)]⟩
    m.wf = true ∧ m.size = m.size ∧ ∀ a, a < m.size.val → m.read a = m.read a := ⟨by decide, rfl, fun _ _ => rfl⟩

/-- The cell at `PC` is patched: to a word that is no instruction, to a bad digit, to `HLT` in the last cell, and to an
`IN` whose parameter word is missing. Then a parameter word: R209's own program at its second instruction. -/
theorem witness_StoreIsSeenByNextFetch :
    ((∃ t, memWrite (machine [99]) 0 0 = some t) ∧ (machine [99]).run = .running ∧
      (((machine [99]).pc.toNat : Nat) : Int) = 0 ∧ (0 : Word).toNat % 100 ∉ opcodes) ∧
    (0 ≤ (299 : Word).toInt ∧ (299 : Word).toNat % 100 ∈ opcodes ∧ BadDigit 299) ∧
    (0 ≤ (199 : Word).toInt ∧ (199 : Word).toNat % 100 ∈ opcodes ∧ ¬ BadDigit 199 ∧
      (machine [99]).pc.toNat + cellsOf ((199 : Word).toNat % 100) ≤ (machine [99]).mem.size.val) ∧
    (0 ≤ (3 : Word).toInt ∧ (3 : Word).toNat % 100 ∈ opcodes ∧ ¬ BadDigit 3 ∧
      (machine [99]).mem.size.val < (machine [99]).pc.toNat + cellsOf ((3 : Word).toNat % 100)) ∧
    ((∃ t, memWrite (atPc (machine [3, 3, 1108, -1, 8, 3, 4, 3, 99]) 2) 3 8 = some t) ∧
      fetchInstr (atPc (machine [3, 3, 1108, -1, 8, 3, 4, 3, 99]) 2) = .ok (.eq (modes 1 1 0) (-1) 8 3) ∧
      0 < (Instr.eq (modes 1 1 0) (-1) 8 3).params.length ∧ ((2 + 1 + 0 : Nat) : Int) = 3) :=
  ⟨⟨⟨_, rfl⟩, by decide, by decide, by decide⟩, ⟨by decide, by decide, badDigit_of 2 (by decide) (by decide)⟩,
    ⟨by decide, by decide, not_badDigit_of (by decide) (by decide) (by decide), by decide⟩,
    ⟨by decide, by decide, not_badDigit_of (by decide) (by decide) (by decide), by decide⟩,
    ⟨⟨_, rfl⟩, by decide, by decide, by decide⟩⟩

/-- Both sources Immediate at the extremes, or the last cell in Position mode, and the last cell as destination. -/
theorem witness_StoringInstructionsComplete :
    Source (machine [0, 5]) .immediate (-2147483648) (-2147483648) ∧ Source (machine [0, 5]) .position 1 5 ∧
    ¬ Outside (machine [0, 5]) (1 : Word).toInt :=
  ⟨rfl, ⟨1, by decide, by decide, by decide⟩, not_outside_of (by decide) (by decide)⟩

theorem witness_AddCompletesWithWrappedSum : ∃ (s : State) (ms : Modes) (r1 r2 r3 p1 p2 : Word),
    Source s ms.m1 r1 p1 ∧ Source s ms.m2 r2 p2 ∧ ¬ Outside s r3.toInt :=
  ⟨_, modes 1 0 1, _, _, _, _, _, witness_StoringInstructionsComplete⟩

theorem witness_MulCompletesWithWrappedProduct : ∃ (s : State) (ms : Modes) (r1 r2 r3 p1 p2 : Word),
    Source s ms.m1 r1 p1 ∧ Source s ms.m2 r2 p2 ∧ ¬ Outside s r3.toInt :=
  ⟨_, modes 1 0 0, _, _, _, _, _, witness_StoringInstructionsComplete⟩

theorem witness_LtCompletesWithTruth : ∃ (s : State) (ms : Modes) (r1 r2 r3 p1 p2 : Word),
    Source s ms.m1 r1 p1 ∧ Source s ms.m2 r2 p2 ∧ ¬ Outside s r3.toInt :=
  ⟨_, modes 1 0 0, _, _, _, _, _, witness_StoringInstructionsComplete⟩

theorem witness_EqCompletesWithTruth : ∃ (s : State) (ms : Modes) (r1 r2 r3 p1 p2 : Word),
    Source s ms.m1 r1 p1 ∧ Source s ms.m2 r2 p2 ∧ ¬ Outside s r3.toInt :=
  ⟨_, modes 1 0 0, _, _, _, _, _, witness_StoringInstructionsComplete⟩

theorem witness_InCompletesWithToken :
    ¬ Outside (machine [3, 2, 99] [.value (-2147483648)]) (2 : Word).toInt ∧
    (machine [3, 2, 99] [.value (-2147483648)]).input = .value (-2147483648) :: [] :=
  ⟨not_outside_of (by decide) (by decide), by decide⟩

theorem witness_OutCompletesWithSource :
    Source (machine [4, 1]) .position 1 1 ∧ (machine [4, 1]).verdicts.head? ≠ some .rejected :=
  ⟨⟨1, by decide, by decide, by decide⟩, by decide⟩

/-- Taken on a negative condition to address 0; not taken, whatever the target. -/
theorem witness_JtCompletes :
    (Source (machine [1]) .immediate (-1) (-1) ∧ Source (machine [1]) .immediate 0 0 ∧ (-1 : Word).toInt ≠ 0 ∧
      0 ≤ (0 : Word).toInt) ∧
    (Source (machine [1]) .immediate 0 0 ∧ Source (machine [1]) .immediate (-1) (-1) ∧ (0 : Word).toInt = 0) :=
  ⟨⟨rfl, rfl, by decide, by decide⟩, rfl, rfl, by decide⟩

theorem witness_JfCompletes :
    (Source (machine [1]) .immediate 0 0 ∧ Source (machine [1]) .position 0 1 ∧ (0 : Word).toInt = 0 ∧
      0 ≤ (1 : Word).toInt) ∧
    (Source (machine [1]) .immediate (-1) (-1) ∧ Source (machine [1]) .immediate (-1) (-1) ∧ (-1 : Word).toInt ≠ 0) :=
  ⟨⟨rfl, ⟨0, by decide, by decide, by decide⟩, by decide, by decide⟩, rfl, rfl, by decide⟩

/-- The clauses of a rule of format F4 at the state of an image: a bad digit in the destination slot; the last word
missing; a source outside; the destination at `N`; and everything in place. -/
theorem witness_f4 :
    (AtWord (machine [20001]) 20001 ∧ 0 ≤ (20001 : Word).toInt ∧ (20001 : Word).toNat % 100 = 1 ∧ BadDigit 20001) ∧
    (AtWord (machine [1, 0, 0]) 1 ∧ ¬ BadDigit 1 ∧ (machine [1, 0, 0]).mem.size.val ≤ (machine [1, 0, 0]).pc.toNat + 3) ∧
    (AtWord (machine [1, 5, 0, 0, 99]) 1 ∧ Param (machine [1, 5, 0, 0, 99]) 1 5 ∧
      Param (machine [1, 5, 0, 0, 99]) 2 0 ∧ Param (machine [1, 5, 0, 0, 99]) 3 0 ∧
      sourceOf (machine [1, 5, 0, 0, 99]) 1 2 5 = none) ∧
    (Param (machine [1, 0, 0, 5, 99]) 3 5 ∧ Outside (machine [1, 0, 0, 5, 99]) (5 : Word).toInt) ∧
    (Param (machine [1001, 0, -1, 3]) 1 0 ∧ Param (machine [1001, 0, -1, 3]) 2 (-1) ∧
      Param (machine [1001, 0, -1, 3]) 3 3 ∧ sourceOf (machine [1001, 0, -1, 3]) 1001 2 0 = some 1001 ∧
      sourceOf (machine [1001, 0, -1, 3]) 1001 3 (-1) = some (-1) ∧
      ¬ Outside (machine [1001, 0, -1, 3]) (3 : Word).toInt) :=
  ⟨⟨⟨by decide, by decide⟩, by decide, by decide, badDigit_of 4 (by decide) (by decide)⟩,
    ⟨⟨by decide, by decide⟩, not_badDigit_of (by decide) (by decide) (by decide), by decide⟩,
    ⟨⟨by decide, by decide⟩, by unfold Param; decide, by unfold Param; decide, by unfold Param; decide, by decide⟩,
    ⟨by unfold Param; decide, .inr (by decide)⟩,
    ⟨by unfold Param; decide, by unfold Param; decide, by unfold Param; decide, by decide, by decide,
      not_outside_of (by decide) (by decide)⟩⟩

theorem witness_AddStepFollowsItsRule : AtWord (machine [11101, 1, 1, 0]) 11101 ∧ 0 ≤ (11101 : Word).toInt ∧
    (11101 : Word).toNat % 100 = 1 := ⟨⟨by decide, by decide⟩, by decide, by decide⟩

theorem witness_MulStepFollowsItsRule : AtWord (machine [2, 4, 4, 5, 99, 0]) 2 ∧ 0 ≤ (2 : Word).toInt ∧
    (2 : Word).toNat % 100 = 2 := ⟨⟨by decide, by decide⟩, by decide, by decide⟩

theorem witness_LtStepFollowsItsRule : AtWord (machine [1107, -1, 0, 0, 99]) 1107 ∧ 0 ≤ (1107 : Word).toInt ∧
    (1107 : Word).toNat % 100 = 7 := ⟨⟨by decide, by decide⟩, by decide, by decide⟩

theorem witness_EqStepFollowsItsRule : AtWord (machine [8, 0, 0, 0, 99]) 8 ∧ 0 ≤ (8 : Word).toInt ∧
    (8 : Word).toNat % 100 = 8 := ⟨⟨by decide, by decide⟩, by decide, by decide⟩

/-- A bad digit; a word missing; a source outside; a taken jump to a negative target, to 0, and one not taken. -/
theorem witness_JtStepFollowsItsRule :
    (AtWord (machine [205]) 205 ∧ 0 ≤ (205 : Word).toInt ∧ (205 : Word).toNat % 100 = 5 ∧ BadDigit 205) ∧
    (AtWord (machine [5, 0]) 5 ∧ ¬ BadDigit 5 ∧ (machine [5, 0]).mem.size.val ≤ (machine [5, 0]).pc.toNat + 2) ∧
    (AtWord (machine [5, 4, 9, 99, 0]) 5 ∧ Param (machine [5, 4, 9, 99, 0]) 1 4 ∧ Param (machine [5, 4, 9, 99, 0]) 2 9 ∧
      sourceOf (machine [5, 4, 9, 99, 0]) 5 3 9 = none) ∧
    (Param (machine [1105, 1, -1]) 1 1 ∧ Param (machine [1105, 1, -1]) 2 (-1) ∧
      sourceOf (machine [1105, 1, -1]) 1105 2 1 = some 1 ∧ sourceOf (machine [1105, 1, -1]) 1105 3 (-1) = some (-1) ∧
      (1 : Word).toInt ≠ 0 ∧ (-1 : Word).toInt < 0) ∧
    (Param (machine [1105, 1, 0]) 2 0 ∧ sourceOf (machine [1105, 1, 0]) 1105 3 0 = some 0 ∧ 0 ≤ (0 : Word).toInt) ∧
    (Param (machine [1105, 0, -1, 99]) 1 0 ∧ sourceOf (machine [1105, 0, -1, 99]) 1105 2 0 = some 0 ∧
      ¬ (0 : Word).toInt ≠ 0) :=
  ⟨⟨⟨by decide, by decide⟩, by decide, by decide, badDigit_of 2 (by decide) (by decide)⟩,
    ⟨⟨by decide, by decide⟩, not_badDigit_of (by decide) (by decide) (by decide), by decide⟩,
    ⟨⟨by decide, by decide⟩, by unfold Param; decide, by unfold Param; decide, by decide⟩,
    ⟨by unfold Param; decide, by unfold Param; decide, by decide, by decide, by decide, by decide⟩,
    ⟨by unfold Param; decide, by decide, by decide⟩,
    ⟨by unfold Param; decide, by decide, by decide⟩⟩

theorem witness_JfStepFollowsItsRule :
    (AtWord (machine [1106, 0, 4]) 1106 ∧ 0 ≤ (1106 : Word).toInt ∧ (1106 : Word).toNat % 100 = 6 ∧ ¬ BadDigit 1106) ∧
    (Param (machine [1106, 0, 4]) 1 0 ∧ Param (machine [1106, 0, 4]) 2 4 ∧
      sourceOf (machine [1106, 0, 4]) 1106 2 0 = some 0 ∧ sourceOf (machine [1106, 0, 4]) 1106 3 4 = some 4 ∧
      (0 : Word).toInt = 0 ∧ 0 ≤ (4 : Word).toInt) ∧
    (Param (machine [1106, 5, 4]) 1 5 ∧ ¬ (5 : Word).toInt = 0) :=
  ⟨⟨⟨by decide, by decide⟩, by decide, by decide, not_badDigit_of (by decide) (by decide) (by decide)⟩,
    ⟨by unfold Param; decide, by unfold Param; decide, by decide, by decide, by decide, by decide⟩,
    ⟨by unfold Param; decide, by decide⟩⟩

/-- A bad digit; a word missing; a bad destination; a bad line, an ended stream, a token, into the last cell. -/
theorem witness_InStepFollowsItsRule :
    (AtWord (machine [203]) 203 ∧ 0 ≤ (203 : Word).toInt ∧ (203 : Word).toNat % 100 = 3 ∧ BadDigit 203) ∧
    (AtWord (machine [3]) 3 ∧ ¬ BadDigit 3 ∧ (machine [3]).mem.size.val ≤ (machine [3]).pc.toNat + 1) ∧
    (AtWord (machine [3, 2]) 3 ∧ Param (machine [3, 2]) 1 2 ∧ Outside (machine [3, 2]) (2 : Word).toInt) ∧
    (Param (machine [3, 1] [.bad]) 1 1 ∧ ¬ Outside (machine [3, 1] [.bad]) (1 : Word).toInt ∧
      (machine [3, 1] [.bad]).input = .bad :: []) ∧
    ((machine [3, 1] [] true).input = [] ∧ (machine [3, 1] [] true).inputEnded = true) ∧
    ((machine [3, 1]).input = [] ∧ (machine [3, 1]).inputEnded = false) ∧
    (machine [3, 1] [.value 0]).input = .value 0 :: [] :=
  ⟨⟨⟨by decide, by decide⟩, by decide, by decide, badDigit_of 2 (by decide) (by decide)⟩,
    ⟨⟨by decide, by decide⟩, not_badDigit_of (by decide) (by decide) (by decide), by decide⟩,
    ⟨⟨by decide, by decide⟩, by unfold Param; decide, .inr (by decide)⟩,
    ⟨by unfold Param; decide, not_outside_of (by decide) (by decide), by decide⟩, by decide, by decide, by decide⟩

theorem witness_OutStepFollowsItsRule :
    (AtWord (machine [90104, 5]) 90104 ∧ 0 ≤ (90104 : Word).toInt ∧ (90104 : Word).toNat % 100 = 4 ∧ BadDigit 90104) ∧
    (AtWord (machine [4]) 4 ∧ ¬ BadDigit 4 ∧ (machine [4]).mem.size.val ≤ (machine [4]).pc.toNat + 1) ∧
    (AtWord (machine [4, -1, 99]) 4 ∧ Param (machine [4, -1, 99]) 1 (-1) ∧ sourceOf (machine [4, -1, 99]) 4 2 (-1) = none) ∧
    (Param (machine [104, 1] [] false [.rejected]) 1 1 ∧
      sourceOf (machine [104, 1] [] false [.rejected]) 104 2 1 = some 1 ∧
      (machine [104, 1] [] false [.rejected]).verdicts = .rejected :: []) ∧
    (machine [104, 1] [] false [.accepted]).verdicts = .accepted :: [] :=
  ⟨⟨⟨by decide, by decide⟩, by decide, by decide, badDigit_of 4 (by decide) (by decide)⟩,
    ⟨⟨by decide, by decide⟩, not_badDigit_of (by decide) (by decide) (by decide), by decide⟩,
    ⟨⟨by decide, by decide⟩, by unfold Param; decide, by decide⟩,
    ⟨by unfold Param; decide, by decide, by decide⟩, by decide⟩

theorem witness_HltStepFollowsItsRule :
    (AtWord (machine [30099]) 30099 ∧ 0 ≤ (30099 : Word).toInt ∧ (30099 : Word).toNat % 100 = 99 ∧ BadDigit 30099) ∧
    (AtWord (machine [11199]) 11199 ∧ 0 ≤ (11199 : Word).toInt ∧ (11199 : Word).toNat % 100 = 99 ∧ ¬ BadDigit 11199) :=
  ⟨⟨⟨by decide, by decide⟩, by decide, by decide, badDigit_of 4 (by decide) (by decide)⟩,
    ⟨by decide, by decide⟩, by decide, by decide, not_badDigit_of (by decide) (by decide) (by decide)⟩

/-- Mixed signs; the smallest positive overflow; the smallest negative one. -/
theorem witness_AdditionSignsAndCommutation :
    (Source (machine [5]) .immediate (-1) (-1) ∧ Source (machine [5]) .position 0 5 ∧
      ¬ Outside (machine [5]) (0 : Word).toInt ∧ (-1 : Word).toInt < 0 ∧ 0 ≤ (5 : Word).toInt) ∧
    (0 ≤ (1 : Word).toInt ∧ 0 ≤ (2147483647 : Word).toInt ∧ 2147483647 < (1 : Word).toInt + (2147483647 : Word).toInt) ∧
    ((-1 : Word).toInt < 0 ∧ (-2147483648 : Word).toInt < 0 ∧
      (-1 : Word).toInt + (-2147483648 : Word).toInt < -2147483648) :=
  ⟨⟨rfl, ⟨0, by decide, by decide, by decide⟩, not_outside_of (by decide) (by decide), by decide, by decide⟩,
    by decide, by decide⟩

/-- The least product that fits: -2147483648 times 1. -/
theorem witness_ProductIsExactWhenItFits :
    Source (machine [5]) .immediate (-2147483648) (-2147483648) ∧ Source (machine [5]) .immediate 1 1 ∧
    ¬ Outside (machine [5]) (0 : Word).toInt ∧ -2147483648 ≤ (-2147483648 : Word).toInt * (1 : Word).toInt ∧
    (-2147483648 : Word).toInt * (1 : Word).toInt ≤ 2147483647 :=
  ⟨rfl, rfl, not_outside_of (by decide) (by decide), by decide, by decide⟩

/-- Both sides of the refusal: an image that is refused exists, and one of one cell is built. -/
theorem witness_ConstructionLoadsTheImage :
    2147483647 < (List.replicate 2147483648 (0 : Word)).length ∧
    construct [99] [.bad] true [.rejected] = some (machine [99] [.bad] true [.rejected]) ∧ 0 < ([99] : List Word).length :=
  ⟨by rw [List.length_replicate]; decide, rfl, by decide⟩

theorem witness_HostReadsStatusAndResult :
    (machine [99]).run = .running ∧ (machine [99]).halt.run ≠ .running ∧ 0 < (machine [99]).halt.mem.size.val := by decide

theorem witness_OutputNumeralIsCanonical : State.reset.output = [] ∧
    ({ State.reset with output := [7] } : State).output = State.reset.output ++ [7] := by decide

/-- A line of letters; one more than the largest magnitude on either side. -/
theorem witness_MalformedLinesAreBad :
    ('x' ∈ ['x'] ∧ ¬ IsDigit 'x' ∧ 'x' ∉ ['-', '+', ' ', '\t', '\r']) ∧
    ((∀ c ∈ ['2', '1', '4', '7', '4', '8', '3', '6', '4', '8'], IsDigit c) ∧
      2147483647 < digitsValue ['2', '1', '4', '7', '4', '8', '3', '6', '4', '8']) ∧
    ((∀ c ∈ ['2', '1', '4', '7', '4', '8', '3', '6', '4', '9'], IsDigit c) ∧
      2147483648 < digitsValue ['2', '1', '4', '7', '4', '8', '3', '6', '4', '9']) := by
  refine ⟨by unfold IsDigit; decide, ⟨fun c hc => ?_, by decide⟩, fun c hc => ?_, by decide⟩ <;>
    (unfold IsDigit; fin_cases hc <;> decide)

/-- The same numerals behind a sign and between what an adapter ignores. -/
theorem witness_MalformedLinesAreBad_stripped :
    strippedLine ⟨true, true, true, true⟩ [' ', '+', '2', '1', '4', '7', '4', '8', '3', '6', '4', '8', '\t', '\r'] =
      '+' :: ['2', '1', '4', '7', '4', '8', '3', '6', '4', '8'] ∧
    strippedLine ⟨true, true, true, true⟩ ['-', '2', '1', '4', '7', '4', '8', '3', '6', '4', '9', '\r'] =
      '-' :: ['2', '1', '4', '7', '4', '8', '3', '6', '4', '9'] := by decide

/-- The premise of the first clause, at the empty line: it is no sign and digits for any line syntax. -/
theorem witness_MalformedLinesAreBad_empty (syn : LineSyntax) : ∀ ds, ds ≠ [] → (∀ c ∈ ds, IsDigit c) →
    strippedLine syn [] ≠ ds ∧ strippedLine syn [] ≠ '-' :: ds ∧ strippedLine syn [] ≠ '+' :: ds := by
  intro ds h _
  have e : strippedLine syn [] = [] := by rcases syn with ⟨_, _, _ | _, _ | _⟩ <;> rfl
  rw [e]
  exact ⟨fun h' => h h'.symm, by simp, by simp⟩

/-- A store into a cell; a store refused. -/
theorem witness_StoringFrame :
    (∃ t, exec (.add (modes 1 1 0) 1 1 0) (machine [1]) = .next t ∧ destination (machine [1]) 0 = some 0) ∧
    (∃ t, exec (.eq (modes 1 1 0) 1 1 1) (machine [1]) = .next t ∧ destination (machine [1]) 1 = none) ∧
    (∃ t, exec (.mul (modes 1 1 0) 1 1 0) (machine [1]) = .next t) ∧
    (∃ t, exec (.lt (modes 1 1 0) 1 1 0) (machine [1]) = .next t) ∧
    ∃ t, exec (.inp (modes 0 0 0) 0) (machine [1] [.value 3]) = .next t :=
  ⟨⟨_, rfl, by decide⟩, ⟨_, rfl, by decide⟩, ⟨_, rfl⟩, ⟨_, rfl⟩, _, rfl⟩

theorem witness_NonStoringFrame :
    (∃ t, exec (.out (modes 1 0 0) 1) (machine [1]) = .next t) ∧
    (∃ t, exec (.jt (modes 1 1 0) 1 (-1)) (machine [1]) = .next t) ∧
    (∃ t, exec (.jf (modes 1 1 0) 1 0) (machine [1]) = .next t) ∧
    ∃ t, exec (.hlt (modes 0 0 0)) (machine [1]) = .next t := ⟨⟨_, rfl⟩, ⟨_, rfl⟩, ⟨_, rfl⟩, _, rfl⟩

end Sys2Proof.Tests
end

section
/-!
PROOFS. The scope of the machine (00_scope.md): the length of memory is constant (R8), and `wrap32` is the one word
congruent to an integer (R11, R122).
-/

namespace Sys2Proof.Machine

open Sys2Proof.Claims

/-! ### The length of memory -/

/-- No meaning changes `N`: the only ones that write memory write a cell (R8, R44). -/
theorem ExecResult.mem_size {s t : State} {i : Instr} (h : ExecResult s i t) : t.mem.size = s.mem.size := by
  cases h with
  | stored | inStored => simp only [State.advance_mem, State.setCell_mem, Memory.write_size]
  | f4Fault | jumpFault | inFault | inBad | inEnded | outFault | outRejected => simp only [State.raise_mem]
  | jumped => simp only [State.jump_mem]
  | fellThrough | emitted => simp only [State.advance_mem]
  | halted => simp only [State.halt_mem, State.advance_mem]

/-- No step changes `N` (R8). -/
theorem step_mem_size {s t : State} (h : step s = .next t) : t.mem.size = s.mem.size := by
  obtain ⟨-, ⟨-, rfl⟩ | ⟨-, e, -, rfl⟩ | ⟨-, i, -, -, hexec⟩⟩ := step_cases h
  · rw [State.halt_mem]
  · rw [State.raise_mem]
  · exact (exec_inv hexec).mem_size

/-- Settles O20: no step changes the length, and its bound is that of the type of `Memory.size`. -/
theorem stepKeepsMemoryLength : Obligations.StepKeepsMemoryLength :=
  fun _ t h => ⟨step_mem_size h, Nat.le_of_lt_succ t.mem.size.isLt⟩

/-! ### The word congruent to an integer -/

/-- A word is the truncation of an integer exactly when its signed value is congruent to it: the signed value is its
own balanced remainder, and integers with one balanced remainder differ by a multiple of the modulus. -/
theorem eq_ofInt_iff_dvd {n : Nat} (v : BitVec n) (z : Int) :
    v = BitVec.ofInt n z ↔ ((2 ^ n : Nat) : Int) ∣ v.toInt - z :=
  calc v = BitVec.ofInt n z
    _ ↔ v.toInt = z.bmod (2 ^ n) := by rw [← BitVec.toInt_inj, BitVec.toInt_ofInt]
    _ ↔ v.toInt.bmod (2 ^ n) = z.bmod (2 ^ n) := by rw [BitVec.toInt_bmod_cancel]
    _ ↔ (v.toInt - z).bmod (2 ^ n) = 0 := Int.bmod_eq_bmod_iff_bmod_sub_eq_zero
    _ ↔ ((2 ^ n : Nat) : Int) ∣ v.toInt - z := Int.dvd_iff_bmod_eq_zero.symm

/-- Settles O50: `eq_ofInt_iff_dvd` at 32 bits. -/
theorem wrapIsTheCongruentWord : Obligations.WrapIsTheCongruentWord :=
  fun z v => eq_ofInt_iff_dvd v z

end Sys2Proof.Machine
end

section
/-!
PROOFS. The registers and the invariant (10_state.md): each operation on the state keeps `State.Inv` (R21, R24, R26),
and `PC` moves by the list of R22.
-/

namespace Sys2Proof.Machine

open Sys2Proof.Claims

/-! ### Values of `PC` -/

/-- A word that is not negative is at most the largest `i32`. -/
theorem toNat_le_of_toInt_nonneg {w : Word} (h : 0 ≤ w.toInt) : w.toNat ≤ 2147483647 := by
  have hcond := BitVec.toInt_eq_toNat_cond w
  split at hcond <;> omega

/-- The advance over cells that lie inside memory does not wrap (R104, R107). -/
theorem State.advance_pc_toNat {s : State} {n : Nat} (h : s.pc.toNat + n ≤ s.mem.size.val) :
    (s.advance n).pc.toNat = s.pc.toNat + n := by
  have hsize := s.mem.size.isLt
  rw [State.advance_pc, BitVec.toNat_add, BitVec.toNat_ofNat]
  omega

/-! ### The invariant, operation by operation -/

section Inv

variable {s : State}

theorem State.Inv.setCell (hs : s.Inv) {k : Nat} (hk : k < s.mem.size.val) (v : Word) : (s.setCell k v).Inv := by
  obtain ⟨hmem, hpc, hcause⟩ := hs
  exact ⟨Memory.wf_write hmem hk v, hpc, hcause⟩

theorem State.Inv.advance (hs : s.Inv) {n : Nat} (h : s.pc.toNat + n ≤ s.mem.size.val) : (s.advance n).Inv := by
  obtain ⟨hmem, -, hcause⟩ := hs
  have hsize := s.mem.size.isLt
  exact ⟨hmem, by rw [State.advance_pc_toNat h]; omega, hcause⟩

theorem State.Inv.jump (hs : s.Inv) {p : Word} (hp : 0 ≤ p.toInt) : (s.jump p).Inv := by
  obtain ⟨hmem, -, hcause⟩ := hs
  exact ⟨hmem, toNat_le_of_toInt_nonneg hp, hcause⟩

theorem State.Inv.raise (hs : s.Inv) (e : FatalError) : (s.raise e).Inv := by
  obtain ⟨hmem, hpc, -⟩ := hs
  exact ⟨hmem, hpc, by simp⟩

theorem State.Inv.halt (hs : s.Inv) (hrun : s.run = .running) : s.halt.Inv := by
  obtain ⟨hmem, hpc, hcause⟩ := hs
  have hnone : s.cause = .none := hcause.2 (by simp [hrun])
  exact ⟨hmem, hpc, by simp [hnone]⟩

/-- The invariant says nothing of the ports. -/
theorem State.Inv.withPorts (hs : s.Inv) (input : List InputAnswer) (output : List Word) (verdicts : List Verdict) :
    State.Inv { s with input := input, output := output, verdicts := verdicts } := hs

end Inv

/-! ### Every step keeps the invariant -/

/-- A meaning of an instruction that lies inside memory keeps the invariant: it is one of the operations above, or a
store, an emission or an advance followed by one. -/
theorem ExecResult.inv {s t : State} {i : Instr} (h : ExecResult s i t) (hs : s.Inv) (hrun : s.run = .running)
    (hin : s.pc.toNat + i.size ≤ s.mem.size.val) : t.Inv := by
  cases h with
  | f4Fault | jumpFault | inFault | inEnded | outFault => exact hs.raise _
  | inBad | outRejected => exact (hs.withPorts _ _ _).raise _
  | stored hi v _ hk =>
    rw [hi.size] at hin
    exact (hs.setCell (cellIndex_eq_some.1 hk).2 v).advance hin
  | inStored _ hk _ => exact ((hs.withPorts _ _ _).setCell (cellIndex_eq_some.1 hk).2 _).advance hin
  | emitted => exact (hs.withPorts _ _ _).advance hin
  | jumped _ _ _ ht => exact hs.jump ht
  | fellThrough hi _ _ =>
    rw [hi.size] at hin
    exact hs.advance hin
  | halted => exact (hs.advance hin).halt hrun

/-- Settles O18: a step is the implicit halt, a fetch failure taken, or a meaning, and each keeps the invariant. -/
theorem stepKeepsInvariant : Obligations.StepKeepsInvariant := by
  intro s t hs h
  obtain ⟨hrun, ⟨-, rfl⟩ | ⟨-, e, -, rfl⟩ | ⟨-, i, -, hin, hexec⟩⟩ := step_cases h
  · exact hs.halt hrun
  · exact hs.raise e
  · exact (exec_inv hexec).inv hs hrun hin

/-! ### How `PC` changes -/

/-- The resolver gives exactly what a source denotes (R46). -/
theorem resolve_eq_some_iff_source {s : State} {m : Mode} {r p : Word} :
    resolve s m r = some p ↔ Source s m r p := by
  rw [resolve_eq_some]
  cases m with
  | immediate => simp [Source, eq_comm]
  | position =>
    simp only [reduceCtorEq, false_and, true_and, false_or, memRead_eq_some, Source]
    exact exists_congr fun k => by tauto

theorem IsF4.pcMoved {i : Instr} {ms : Modes} {r1 r2 r3 : Word} (h : IsF4 i ms r1 r2 r3) (s t : State) :
    PcMoved s t i ↔ t.pc.toNat = s.pc.toNat + 4 := by
  cases h <;> rfl

theorem IsJump.pcMoved {i : Instr} {ms : Modes} {r1 r2 : Word} {c : Word → Bool} (h : IsJump i ms r1 r2 c)
    (s t : State) :
    PcMoved s t i ↔
      (∃ p2, TakenTo s i p2 ∧ 0 ≤ p2.toInt ∧ t.pc = p2) ∨ (NotTaken s i ∧ t.pc.toNat = s.pc.toNat + 3) := by
  cases h <;> rfl

section Jump

variable {s : State} {i : Instr} {ms : Modes} {r1 r2 p1 p2 : Word} {c : Word → Bool}

/-- A jump whose condition holds on its first source is taken to its second (R150, R151). -/
theorem IsJump.takenTo (h : IsJump i ms r1 r2 c) (hp : resolveTwo s ms r1 r2 = some (p1, p2)) (hc : c p1 = true) :
    TakenTo s i p2 := by
  obtain ⟨h1, h2⟩ := resolveTwo_eq_some.1 hp
  refine ⟨ms, r1, r2, p1, resolve_eq_some_iff_source.1 h1, resolve_eq_some_iff_source.1 h2, ?_⟩
  cases h with
  | jt => exact .inl ⟨rfl, of_decide_eq_true hc⟩
  | jf => exact .inr ⟨rfl, of_decide_eq_true hc⟩

/-- A jump whose condition fails on its first source is not taken. -/
theorem IsJump.notTaken (h : IsJump i ms r1 r2 c) (hp : resolveTwo s ms r1 r2 = some (p1, p2)) (hc : c p1 = false) :
    NotTaken s i := by
  obtain ⟨h1, -⟩ := resolveTwo_eq_some.1 hp
  refine ⟨ms, r1, r2, p1, resolve_eq_some_iff_source.1 h1, ?_⟩
  cases h with
  | jt => exact .inl ⟨rfl, not_not.1 (of_decide_eq_false hc)⟩
  | jf => exact .inr ⟨rfl, of_decide_eq_false hc⟩

end Jump

/-- A meaning either takes an error, which leaves `PC` (R188), or moves `PC` as R22 lists for its instruction. -/
theorem ExecResult.faulted_or_pcMoved {s t : State} {i : Instr} (h : ExecResult s i t) (hrun : s.run = .running)
    (hin : s.pc.toNat + i.size ≤ s.mem.size.val) :
    (t.run = .faulted ∧ t.pc = s.pc) ∨ (t.run ≠ .faulted ∧ PcMoved s t i) := by
  cases h with
  | f4Fault | jumpFault | inFault | inBad | inEnded | outFault | outRejected => exact .inl ⟨rfl, rfl⟩
  | stored hi v =>
    rw [hi.size] at hin
    exact .inr ⟨by simp [hrun], (hi.pcMoved ..).2 (State.advance_pc_toNat hin)⟩
  | inStored | emitted => exact .inr ⟨by simp [hrun], State.advance_pc_toNat hin⟩
  | jumped hi hp hc ht => exact .inr ⟨by simp [hrun], (hi.pcMoved ..).2 (.inl ⟨_, hi.takenTo hp hc, ht, rfl⟩)⟩
  | fellThrough hi hp hc =>
    rw [hi.size] at hin
    exact .inr ⟨by simp [hrun], (hi.pcMoved ..).2 (.inr ⟨hi.notTaken hp hc, State.advance_pc_toNat hin⟩)⟩
  | halted => exact .inr ⟨by simp, State.advance_pc_toNat hin⟩

/-- What a step does to `PC`: the implicit halt and an error leave it, and an instruction that completes moves it. -/
theorem step_pc_cases {s t : State} (h : step s = .next t) :
    (s.mem.size.val ≤ s.pc.toNat ∧ t.pc = s.pc) ∨
    (s.pc.toNat < s.mem.size.val ∧ t.run = .faulted ∧ t.pc = s.pc) ∨
    (s.pc.toNat < s.mem.size.val ∧ t.run ≠ .faulted ∧
      ∃ i, fetchInstr s = .ok i ∧ s.pc.toNat + i.size ≤ s.mem.size.val ∧ PcMoved s t i) := by
  obtain ⟨hrun, ⟨hend, rfl⟩ | ⟨hlt, e, -, rfl⟩ | ⟨hlt, i, hf, hin, hexec⟩⟩ := step_cases h
  · exact .inl ⟨hend, rfl⟩
  · exact .inr (.inl ⟨hlt, rfl, rfl⟩)
  · rcases (exec_inv hexec).faulted_or_pcMoved hrun hin with ⟨hrun', hpc⟩ | ⟨hrun', hmoved⟩
    · exact .inr (.inl ⟨hlt, hrun', hpc⟩)
    · exact .inr (.inr ⟨hlt, hrun', i, hf, hin, hmoved⟩)

/-- An instruction that completes advances `PC` by its own size, or is a jump taken to a target that is not negative. -/
theorem advanced_or_taken_of_pcMoved {s t : State} {i : Instr} (h : PcMoved s t i) :
    t.pc.toNat = s.pc.toNat + i.size ∨ (TakenTo s i t.pc ∧ 0 ≤ t.pc.toInt) := by
  cases i with
  | add | mul | lt | eq | inp | out | hlt => exact .inl h
  | jt | jf =>
    rcases h with ⟨p2, htaken, hnonneg, rfl⟩ | ⟨-, hadvanced⟩
    · exact .inr ⟨htaken, hnonneg⟩
    · exact .inl hadvanced

/-- Settles O17, by the three cases of `step_pc_cases`: a completed instruction lies inside memory, so its advance stays
at or below `N`, and only a taken jump goes above. -/
theorem pcChangesByTheList : Obligations.PcChangesByTheList := by
  refine ⟨State.applyReset_pc, fun s t h => ?_⟩
  rcases step_pc_cases h with ⟨hend, hpc⟩ | ⟨hlt, hrun, hpc⟩ | ⟨hlt, hrun, i, hf, hin, hmoved⟩
  · exact ⟨fun _ => hpc, fun _ => hpc, fun _ hlt => absurd hend (by omega), fun hlt => absurd hend (by omega)⟩
  · refine ⟨fun _ => hpc, fun _ => hpc, fun _ _ _ hrun' => absurd hrun hrun', fun _ habove => ?_⟩
    rw [hpc] at habove
    omega
  · refine ⟨fun hend => absurd hend (by omega), fun hrun' => absurd hrun' hrun, fun j _ hj _ => ?_,
      fun _ habove => ?_⟩
    · cases hf.symm.trans hj
      exact hmoved
    · rcases advanced_or_taken_of_pcMoved hmoved with hadvanced | ⟨htaken, hnonneg⟩
      · omega
      · exact ⟨toNat_le_of_toInt_nonneg hnonneg, i, hf, htaken⟩

end Sys2Proof.Machine
end

section
/-!
PROOFS. The host's side of the state (10_state.md, R31, R32): what construction places, and what the host reads.
-/

namespace Sys2Proof.Machine

/-! ### The memory of an image -/

/-- Writing consecutive cells leaves those before them. -/
theorem Memory.read_writeAll_below {a b : Nat} (h : b < a) (m : Memory) (ws : List Word) :
    (m.writeAll a ws).read b = m.read b := by
  induction ws generalizing m a with
  | nil => rfl
  | cons w ws ih => rw [Memory.writeAll, ih (by omega), Memory.read_write_other (by omega)]

/-- Cell `k` of the cells written holds the `k`-th word. -/
theorem Memory.read_writeAll {a k : Nat} {ws : List Word} (m : Memory) (h : k < ws.length) :
    (m.writeAll a ws).read (a + k) = ws[k] := by
  induction ws generalizing m a k with
  | nil => simp at h
  | cons w ws ih =>
    cases k with
    | zero => rw [Memory.writeAll, Memory.read_writeAll_below (by omega)]; simp
    | succ k =>
      have hk : k < ws.length := by simpa using h
      rw [Memory.writeAll, show a + (k + 1) = a + 1 + k by omega, ih _ hk, List.getElem_cons_succ]

/-- An image is refused exactly when it is longer than R8 allows. -/
theorem Memory.ofImage_eq_none {image : List Word} : Memory.ofImage image = none ↔ 2147483647 < image.length := by
  unfold Memory.ofImage
  split
  · simp only [reduceCtorEq, false_iff]; omega
  · simp only [true_iff]; omega

/-- The memory of an image is as long as the image and reads it cell by cell (R85, R203). -/
theorem Memory.ofImage_spec {image : List Word} {m : Memory} (h : Memory.ofImage image = some m) :
    m.size.val = image.length ∧ ∀ k (hk : k < image.length), m.read k = image[k] := by
  unfold Memory.ofImage at h
  split at h
  · cases h
    exact ⟨by rw [Memory.writeAll_size], fun k hk => by simpa using Memory.read_writeAll (a := 0) _ hk⟩
  · cases h

/-! ### Construction -/

section Construct

variable {image : List Word} {answers : List InputAnswer} {ended : Bool} {verdicts : List Verdict}

theorem construct_eq_none : construct image answers ended verdicts = none ↔ Memory.ofImage image = none := by
  unfold construct
  cases Memory.ofImage image <;> simp

/-- A constructed machine is `State.reset` with the image's memory and the ports supplied. -/
theorem construct_eq_some {s : State} :
    construct image answers ended verdicts = some s ↔ ∃ m, Memory.ofImage image = some m ∧
      s = { State.reset with mem := m, input := answers, inputEnded := ended, verdicts := verdicts } := by
  unfold construct
  cases Memory.ofImage image <;> simp [State.reset, eq_comm]

end Construct

/-- Settles O54, from what the memory of an image is. -/
theorem constructionLoadsTheImage : Obligations.ConstructionLoadsTheImage := by
  intro image answers ended verdicts
  refine ⟨construct_eq_none.trans Memory.ofImage_eq_none, fun s h => ?_⟩
  obtain ⟨m, hm, rfl⟩ := construct_eq_some.1 h
  obtain ⟨hsize, hread⟩ := Memory.ofImage_spec hm
  refine ⟨rfl, rfl, rfl, hsize, fun k hk => ?_, rfl, rfl, rfl, rfl⟩
  rw [List.getElem?_eq_getElem hk]
  exact memRead_eq_some.2 ⟨k, rfl, hsize.symm ▸ hk, hread k hk⟩

/-- Settles O19: the memory of no cells and the memory of an image are canonical, and the registers are those of
reset. -/
theorem resetMeetsInvariant : Obligations.ResetMeetsInvariant := by
  have hreset : State.reset.Inv := ⟨rfl, by decide, by decide⟩
  refine ⟨hreset, fun image answers ended verdicts s h => ?_⟩
  obtain ⟨m, hm, rfl⟩ := construct_eq_some.1 h
  obtain ⟨-, hpc, hcause⟩ := hreset
  exact ⟨Memory.wf_ofImage hm, hpc, hcause⟩

/-! ### What the host reads -/

theorem hostRead_of_running {s : State} (h : s.run = .running) (a : Nat) : hostRead s a = none := by
  simp [hostRead, isRunning, h]

/-- Once the run has ended, the host's reading is the bounds-checked one (R205). -/
theorem hostRead_of_ended {s : State} (h : s.run ≠ .running) (a : Nat) : hostRead s a = memRead s (a : Int) := by
  simp [hostRead, isRunning, h]

/-- Settles O55: the codes by evaluation, the reading by whether the machine runs. -/
theorem hostReadsStatusAndResult : Obligations.HostReadsStatusAndResult := by
  refine ⟨rfl, rfl, rfl, fun s a => ⟨fun hrun => hostRead_of_running hrun a, fun hended ha => ?_⟩⟩
  rw [hostRead_of_ended hended]
  exact memRead_eq_some.2 ⟨a, rfl, ha, rfl⟩

end Sys2Proof.Machine
end

section
/-!
PROOFS. Memory (20_memory.md): what a write changes (R44), that the listing is determined by what it reads (R40, R41;
log 1), the resolver (R46, R47), the digits without effect (R49) and what each meaning leaves unchanged (R45, R188).
-/

namespace Sys2Proof.Machine

open Sys2Proof.Claims

/-! ### Writes -/

theorem memWrite_eq_none {s : State} {a : Int} {v : Word} : memWrite s a v = none ↔ Outside s a := by
  rw [Outside, ← cellIndex_eq_none]
  unfold memWrite
  cases cellIndex s a <;> simp

/-- A write that is not refused sets the cell its address names (R44). -/
theorem memWrite_eq_some {s t : State} {a : Int} {v : Word} :
    memWrite s a v = some t ↔ ∃ k : Nat, a = (k : Int) ∧ k < s.mem.size.val ∧ t = s.setCell k v := by
  simp only [← and_assoc, ← cellIndex_eq_some]
  unfold memWrite
  cases cellIndex s a <;> simp [eq_comm]

section Write

variable {s t : State} {k : Nat} {v : Word}

theorem memRead_of_write_self (hmem : t.mem = s.mem.write k v) (hk : k < s.mem.size.val) :
    memRead t (k : Int) = some v :=
  memRead_eq_some.2 ⟨k, rfl, by rwa [hmem, Memory.write_size], by rw [hmem, Memory.read_write_self]⟩

/-- A memory with one cell written is the same but for that cell (R44). -/
theorem cellsSameBut_of_write (hmem : t.mem = s.mem.write k v) : CellsSameBut s t (k : Int) := by
  have hsize : t.mem.size = s.mem.size := by rw [hmem, Memory.write_size]
  refine ⟨hsize, fun b hb => Option.ext fun w => ?_⟩
  rw [memRead_eq_some, memRead_eq_some, hsize, hmem]
  refine exists_congr fun j => and_congr_right fun hj => ?_
  rw [Memory.read_write_other (by omega)]

theorem cellsSameBut_setCell (s : State) (k : Nat) (v : Word) : CellsSameBut s (s.setCell k v) (k : Int) :=
  cellsSameBut_of_write rfl

end Write

/-- Settles O27: a write outside memory is refused, one inside is `State.setCell`. -/
theorem memWriteChangesOneCell : Obligations.MemWriteChangesOneCell := by
  refine fun s a v => ⟨fun hout => ⟨memWrite_eq_none.2 hout, memRead_eq_none.2 hout⟩, fun hin => ?_⟩
  obtain ⟨t, ht⟩ := Option.ne_none_iff_exists'.1 (mt memWrite_eq_none.1 hin)
  obtain ⟨k, rfl, hk, rfl⟩ := memWrite_eq_some.1 ht
  exact ⟨_, ht, memRead_of_write_self rfl hk, cellsSameBut_setCell s k v, rfl, ⟨rfl, rfl⟩, rfl, rfl, rfl, rfl⟩

/-! ### The listing is determined by what it reads -/

/-- An address below the first of an ordered listing reads 0. -/
theorem lookupCell_eq_zero_of_lt {hi lo a : Nat} (ha : a < lo) {cs : List (Nat × Word)}
    (h : cellsOrdered hi lo cs = true) : lookupCell cs a = 0#32 := by
  induction cs generalizing lo with
  | nil => rfl
  | cons c rest ih =>
    obtain ⟨k, v⟩ := c
    obtain ⟨hlo, -, -, hrest⟩ := cellsOrdered_cons.1 h
    rw [lookupCell, if_neg (by omega), ih (by omega) hrest]

/-- The first address of an ordered listing does not read 0, so an ordered listing that reads the same does not begin
after it. -/
theorem le_head_of_lookupCell_eq {hi lo lo' k : Nat} {v : Word} {rest cs : List (Nat × Word)}
    (h : cellsOrdered hi lo ((k, v) :: rest) = true) (hcs : cellsOrdered hi lo' cs = true)
    (hread : ∀ a, a < hi → lookupCell ((k, v) :: rest) a = lookupCell cs a) : lo' ≤ k := by
  obtain ⟨-, hhi, hv, -⟩ := cellsOrdered_cons.1 h
  by_contra hlt
  have hzero := hread k hhi
  rw [lookupCell, if_pos rfl, lookupCell_eq_zero_of_lt (by omega) hcs] at hzero
  exact hv hzero

/-- Ordered listings that read the same are equal: neither begins after the other's first cell, so they begin with the
same cell, and their rests read the same. -/
theorem cellsOrdered_ext {hi lo lo' : Nat} {cs cs' : List (Nat × Word)} (h : cellsOrdered hi lo cs = true)
    (h' : cellsOrdered hi lo' cs' = true) (hread : ∀ a, a < hi → lookupCell cs a = lookupCell cs' a) : cs = cs' := by
  induction cs generalizing lo lo' cs' with
  | nil =>
    rcases cs' with _ | ⟨⟨k', v'⟩, rest'⟩
    · rfl
    · have := le_head_of_lookupCell_eq (lo' := k' + 1) (cs := []) h' rfl fun a ha => (hread a ha).symm
      omega
  | cons c rest ih =>
    obtain ⟨k, v⟩ := c
    obtain ⟨-, hhi, hv, hrest⟩ := cellsOrdered_cons.1 h
    rcases cs' with _ | ⟨⟨k', v'⟩, rest'⟩
    · have := le_head_of_lookupCell_eq (lo' := k + 1) (cs := []) h rfl hread
      omega
    · obtain ⟨-, hhi', hv', hrest'⟩ := cellsOrdered_cons.1 h'
      have hle : k' ≤ k := le_head_of_lookupCell_eq h (cellsOrdered_cons.2 ⟨le_rfl, hhi', hv', hrest'⟩) hread
      have hge : k ≤ k' :=
        le_head_of_lookupCell_eq h' (cellsOrdered_cons.2 ⟨le_rfl, hhi, hv, hrest⟩) fun a ha => (hread a ha).symm
      obtain rfl : k = k' := by omega
      obtain rfl : v = v' := by simpa [lookupCell] using hread k hhi
      rw [ih hrest hrest' fun a ha => ?_]
      by_cases hak : k = a
      · rw [lookupCell_eq_zero_of_lt (by omega) hrest, lookupCell_eq_zero_of_lt (by omega) hrest']
      · simpa [lookupCell, hak] using hread a ha

/-- Settles O28: the two listings are ordered below the common length and read the same there. -/
theorem canonicalMemoryIsDetermined : Obligations.CanonicalMemoryIsDetermined := by
  rintro ⟨n, cs⟩ ⟨n', cs'⟩ hwf hwf' rfl hread
  exact congrArg (Memory.mk n) (cellsOrdered_ext hwf hwf' hread)

/-! ### Sources -/

theorem resolve_eq_none {s : State} {m : Mode} {r : Word} :
    resolve s m r = none ↔ m = .position ∧ Outside s r.toInt := by
  cases m with
  | immediate => simp [resolve]
  | position => exact memRead_eq_none.trans (and_iff_right rfl).symm

/-- Settles O30: what the resolver answers, and when it fails. -/
theorem resolverFollowsMode : Obligations.ResolverFollowsMode :=
  fun _ _ _ => ⟨fun _ => resolve_eq_some_iff_source, resolve_eq_none⟩

/-- Settles O31: the meanings project the digits of their sources out of the three and use no other, so each pair of
answers is the same by definition. -/
theorem ignoredDigitsHaveNoEffect : Obligations.IgnoredDigitsHaveNoEffect :=
  fun _ _ _ _ _ _ _ _ _ _ => ⟨rfl, rfl, rfl, rfl, rfl, rfl, rfl, rfl, rfl⟩

/-! ### Frames of the execution shapes and the port instructions -/

section Frames

variable {s t : State} {ms : Modes} {r1 r2 r3 : Word}

/-- A meaning that writes no cell meets the frame of the storing ones. -/
theorem storeFrame_of_mem_eq {r : Word} (hmem : t.mem = s.mem)
    (hstatus : StatusSame s t ∨ (t.run = .faulted ∧ t.pc = s.pc)) : StoreFrame s t r :=
  ⟨fun _ _ => ⟨by rw [hmem], fun _ _ => memRead_congr hmem _⟩, fun _ => hmem,
    hstatus.imp_right fun ⟨hrun, hpc⟩ => ⟨hrun, hmem, hpc⟩⟩

/-- A meaning that writes its destination, and neither `RUN` nor `CAUSE`, meets that frame. -/
theorem storeFrame_of_write {r v : Word} {k : Nat} (hk : destination s r = some k) (hmem : t.mem = s.mem.write k v)
    (hstatus : StatusSame s t) : StoreFrame s t r := by
  refine ⟨fun j hj => ?_, fun hnone => absurd hk (by simp [hnone]), .inl hstatus⟩
  obtain rfl : k = j := Option.some.inj (hk.symm.trans hj)
  exact cellsSameBut_of_write hmem

/-- Format F4 writes its destination at most, and no port (R57). -/
theorem storeResult_frame {f : Word → Word → Word} (h : storeResult f ms r1 r2 r3 s = .next t) :
    StoreFrame s t r3 ∧ PortsSame s t := by
  rcases storeResult_cases f ms r1 r2 r3 s with ⟨he, -⟩ | ⟨p1, p2, k, -, hk, he⟩
  all_goals cases he.symm.trans h
  · exact ⟨storeFrame_of_mem_eq rfl (.inr ⟨rfl, rfl⟩), rfl, rfl, rfl, rfl⟩
  · exact ⟨storeFrame_of_write hk rfl ⟨rfl, rfl⟩, rfl, rfl, rfl, rfl⟩

/-- `IN` writes its destination at most, and of the ports the answers waiting (R135). -/
theorem execIn_frame (h : execIn ms r1 s = .next t) :
    StoreFrame s t r1 ∧ t.inputEnded = s.inputEnded ∧ t.output = s.output ∧ t.verdicts = s.verdicts := by
  rcases execIn_cases ms r1 s with ⟨-, he⟩ | ⟨k, v, rest, hk, -, he⟩ | ⟨k, rest, -, -, he⟩ | ⟨k, -, -, -, he⟩ |
    ⟨k, -, -, -, he⟩
  all_goals cases he.symm.trans h
  · exact ⟨storeFrame_of_mem_eq rfl (.inr ⟨rfl, rfl⟩), rfl, rfl, rfl⟩
  · exact ⟨storeFrame_of_write hk rfl ⟨rfl, rfl⟩, rfl, rfl, rfl⟩
  · exact ⟨storeFrame_of_mem_eq rfl (.inr ⟨rfl, rfl⟩), rfl, rfl, rfl⟩
  · exact ⟨storeFrame_of_mem_eq rfl (.inr ⟨rfl, rfl⟩), rfl, rfl, rfl⟩

/-- Format F3 writes no memory and no port (R150 to R152). -/
theorem jumpWhen_frame {c : Word → Bool} (h : jumpWhen c ms r1 r2 s = .next t) :
    t.mem = s.mem ∧ PortsSame s t ∧ (StatusSame s t ∨ (t.run = .faulted ∧ t.pc = s.pc)) := by
  rcases jumpWhen_cases c ms r1 r2 s with ⟨he, -⟩ | ⟨p1, p2, -, -, -, he⟩ | ⟨p1, p2, -, -, he⟩
  all_goals cases he.symm.trans h
  · exact ⟨rfl, ⟨rfl, rfl, rfl, rfl⟩, .inr ⟨rfl, rfl⟩⟩
  · exact ⟨rfl, ⟨rfl, rfl, rfl, rfl⟩, .inl ⟨rfl, rfl⟩⟩
  · exact ⟨rfl, ⟨rfl, rfl, rfl, rfl⟩, .inl ⟨rfl, rfl⟩⟩

/-- `OUT` writes no memory and no input, and no token when it faults (R138, R140). -/
theorem execOut_frame (h : execOut ms r1 s = .next t) :
    t.mem = s.mem ∧ t.input = s.input ∧ t.inputEnded = s.inputEnded ∧
      (StatusSame s t ∨ (t.run = .faulted ∧ t.output = s.output ∧ t.pc = s.pc)) := by
  rcases execOut_cases ms r1 s with ⟨-, he⟩ | ⟨p1, -, -, he⟩ | ⟨p1, -, -, he⟩
  all_goals cases he.symm.trans h
  · exact ⟨rfl, rfl, rfl, .inr ⟨rfl, rfl, rfl⟩⟩
  · exact ⟨rfl, rfl, rfl, .inl ⟨rfl, rfl⟩⟩
  · exact ⟨rfl, rfl, rfl, .inr ⟨rfl, rfl, rfl⟩⟩

end Frames

/-- Settles O59: four of the five are format F4. -/
theorem storingFrame : Obligations.StoringFrame := by
  refine fun s t ms r1 r2 r3 => ⟨?_, execIn_frame (ms := ms)⟩
  rintro (h | h | h | h) <;> exact storeResult_frame h

/-- Settles O60: `HLT` writes `PC` and `RUN` alone (R170). -/
theorem nonStoringFrame : Obligations.NonStoringFrame := by
  refine fun s t ms r1 r2 => ⟨execOut_frame, fun h => h.elim jumpWhen_frame jumpWhen_frame, fun h => ?_⟩
  cases h
  exact ⟨rfl, ⟨rfl, rfl, rfl, rfl⟩, rfl⟩

end Sys2Proof.Machine
end

section
/-!
PROOFS. Instruction-fetch coherence (20_memory.md, R55; 70_reset_and_hazards.md, R209): what a fetch answers, read from
the word at `PC` and the cells after it, and that it sees the last write to them.
-/

namespace Sys2Proof.Machine

open Sys2Proof.Claims

/-! ### Which words decode, in the words of the claims -/

theorem badDigit_iff {w : Word} :
    BadDigit w ↔ 2 ≤ w.toNat / 100 % 10 ∨ 2 ≤ w.toNat / 1000 % 10 ∨ 2 ≤ w.toNat / 10000 % 10 := by
  simp [BadDigit]

/-- A negative word, or one with no known opcode, is refused whatever its digits (R72, R79, R82). -/
theorem decodeWord_of_invalidOpcode {w : Word} (h : w.toInt < 0 ∨ w.toNat % 100 ∉ opcodes) :
    decodeWord w = .error .invalidOpcode := by
  unfold decodeWord
  split
  · rfl
  · next hw =>
    have hnone : opcodeOfNumber (w.toNat % 100) = none := by
      rw [Option.eq_none_iff_forall_ne_some]
      exact fun op hop => (h.resolve_left hw) (opcodeOfNumber_isSome.1 ⟨op, hop⟩)
    simp [extractDigits, hnone]

/-- A known opcode with a digit that is no mode is refused for the digit (R80, R81). -/
theorem decodeWord_of_badDigit {w : Word} (hw : 0 ≤ w.toInt) (hop : w.toNat % 100 ∈ opcodes) (hbad : BadDigit w) :
    decodeWord w = .error .invalidParameterMode := by
  obtain ⟨op, hop⟩ := opcodeOfNumber_isSome.2 hop
  have hnone : modesOfDigits (extractDigits w.toNat) = none := by
    rw [Option.eq_none_iff_forall_ne_some]
    intro ms hms
    obtain ⟨h1, h2, h3⟩ := modesOfDigits_eq_some.1 hms
    obtain ⟨k, hk, hdigit⟩ := hbad
    have := ms.m1.digit_lt_two
    have := ms.m2.digit_lt_two
    have := ms.m3.digit_lt_two
    simp only [extractDigits, decimalDigit] at h1 h2 h3
    fin_cases hk <;> omega
  unfold decodeWord
  simp [Int.not_lt.2 hw, hnone, show (extractDigits w.toNat).opcode = w.toNat % 100 from rfl, hop]

/-- A known opcode with three digits that are modes decodes (R83). -/
theorem decodeWord_of_legal {w : Word} (hw : 0 ≤ w.toInt) (hop : w.toNat % 100 ∈ opcodes) (hgood : ¬ BadDigit w) :
    ∃ op ms, decodeWord w = .ok (op, ms) := by
  obtain ⟨op, hop⟩ := opcodeOfNumber_isSome.2 hop
  simp only [badDigit_iff, not_or, Nat.not_le] at hgood
  obtain ⟨h1, h2, h3⟩ := hgood
  obtain ⟨m1, h1⟩ := Mode.exists_digit h1
  obtain ⟨m2, h2⟩ := Mode.exists_digit h2
  obtain ⟨m3, h3⟩ := Mode.exists_digit h3
  exact ⟨op, ⟨m1, m2, m3⟩, decodeWord_eq_ok.2 ⟨hw, hop, h1, h2, h3⟩⟩

/-- No opcode has two numbers (R76). -/
theorem opcodeOfNumber_inj {m n : Nat} {op : Opcode} (hm : opcodeOfNumber m = some op)
    (hn : opcodeOfNumber n = some op) : m = n := by
  have hm := opcodeOfNumber_eq_some hm
  have hn := opcodeOfNumber_eq_some hn
  cases op <;> simp_all

/-- The sizes of the decoder are those of the claims (R77). -/
theorem opcodeSize_eq_cellsOf {n : Nat} {op : Opcode} (h : opcodeOfNumber n = some op) :
    opcodeSize op = cellsOf n := by
  have h := opcodeOfNumber_eq_some h
  fin_cases h <;> rfl

/-! ### Fetch, read from the word at `PC` -/

section Fetch

variable {s : State}

theorem fetchInstr_of_decodeWord_error {e : DecodeError} (h : s.pc.toNat < s.mem.size.val)
    (hd : decodeWord (s.mem.read s.pc.toNat) = .error e) : fetchInstr s = .error (DecodeError.toFatal e) := by
  rcases fetchInstr_cases h with ⟨e', hd', hf⟩ | ⟨op, ms, hd', -⟩ | ⟨op, ms, ps, i, hd', -⟩
  all_goals cases hd.symm.trans hd'
  exact hf

theorem fetchInstr_of_missing_cell {op : Opcode} {ms : Modes} (h : s.pc.toNat < s.mem.size.val)
    (hd : decodeWord (s.mem.read s.pc.toNat) = .ok (op, ms)) (hout : s.mem.size.val < s.pc.toNat + opcodeSize op) :
    fetchInstr s = .error .outOfBounds := by
  rcases fetchInstr_cases h with ⟨e, hd', -⟩ | ⟨op', ms', -, -, hf⟩ | ⟨op', ms', ps, i, hd', hin, -⟩
  · cases hd.symm.trans hd'
  · exact hf
  · cases hd.symm.trans hd'
    omega

/-- The cells from `PC` on hold the instruction: its word decodes to its opcode and modes, and its parameters are the
cells that follow (R70, R102, R104). -/
structure FetchedAs (s : State) (i : Instr) (op : Opcode) : Prop where
  word : decodeWord (s.mem.read s.pc.toNat) = .ok (op, i.modes)
  opcode : opcodeOfNumber i.opcodeNumber = some op
  size : i.params.length + 1 = opcodeSize op
  params : ∀ k, k < i.params.length → i.params[k]? = memRead s ((s.pc.toNat + 1 + k : Nat) : Int)

/-- Every instruction fetched is the one its cells hold. -/
theorem fetchedAs_of_fetchInstr_ok {i : Instr} (h : s.pc.toNat < s.mem.size.val) (hf : fetchInstr s = .ok i) :
    ∃ op, FetchedAs s i op := by
  rcases fetchInstr_cases h with ⟨e, -, hf'⟩ | ⟨op, ms, -, -, hf'⟩ | ⟨op, ms, ps, j, hd, -, hr, hb, -, hf'⟩
  all_goals cases hf.symm.trans hf'
  obtain ⟨hop, rfl, hsize, -, hparams⟩ := buildInstr_eq_some hb
  obtain ⟨hlen, hget⟩ := readCells_get hr
  rw [← hlen, List.take_length] at hparams
  refine ⟨op, hd, hop, hsize, fun k hk => ?_⟩
  rw [hparams] at hk ⊢
  exact (hget k (by omega)).symm

/-- A word that decodes, with all its cells inside memory, is fetched (R104). -/
theorem exists_fetchInstr_ok {op : Opcode} {ms : Modes} (h : s.pc.toNat < s.mem.size.val)
    (hd : decodeWord (s.mem.read s.pc.toNat) = .ok (op, ms)) (hin : s.pc.toNat + opcodeSize op ≤ s.mem.size.val) :
    ∃ i, fetchInstr s = .ok i ∧ i.modes = ms ∧ FetchedAs s i op := by
  rcases fetchInstr_cases h with ⟨e, hd', -⟩ | ⟨op', ms', hd', hout, -⟩ | ⟨op', ms', ps, i, -, -, -, -, -, hf⟩
  · cases hd.symm.trans hd'
  · cases hd.symm.trans hd'
    omega
  · obtain ⟨op', hi⟩ := fetchedAs_of_fetchInstr_ok h hf
    cases hd.symm.trans hi.word
    exact ⟨i, hf, rfl, hi⟩

end Fetch

/-! ### The step at an instruction word -/

section AtWord

variable {s : State} {w : Word}

theorem atWord_iff :
    AtWord s w ↔ s.run = .running ∧ s.pc.toNat < s.mem.size.val ∧ s.mem.read s.pc.toNat = w := by
  rw [AtWord, memRead_eq_some]
  simp [eq_comm]

theorem step_of_invalidOpcode (hat : AtWord s w) (h : w.toInt < 0 ∨ w.toNat % 100 ∉ opcodes) :
    step s = .next (faulted s .invalidOpcode) := by
  obtain ⟨hrun, hlt, rfl⟩ := atWord_iff.1 hat
  exact step_of_fetch_error hrun hlt (fetchInstr_of_decodeWord_error hlt (decodeWord_of_invalidOpcode h))

theorem step_of_badDigit (hat : AtWord s w) (hw : 0 ≤ w.toInt) (hop : w.toNat % 100 ∈ opcodes) (hbad : BadDigit w) :
    step s = .next (faulted s .invalidParameterMode) := by
  obtain ⟨hrun, hlt, rfl⟩ := atWord_iff.1 hat
  exact step_of_fetch_error hrun hlt (fetchInstr_of_decodeWord_error hlt (decodeWord_of_badDigit hw hop hbad))

theorem step_of_missing_cell (hat : AtWord s w) (hw : 0 ≤ w.toInt) (hop : w.toNat % 100 ∈ opcodes)
    (hgood : ¬ BadDigit w) (hout : s.mem.size.val < s.pc.toNat + cellsOf (w.toNat % 100)) :
    step s = .next (faulted s .outOfBounds) := by
  obtain ⟨hrun, hlt, rfl⟩ := atWord_iff.1 hat
  obtain ⟨op, ms, hd⟩ := decodeWord_of_legal hw hop hgood
  obtain ⟨-, hnum, -⟩ := decodeWord_eq_ok.1 hd
  rw [← opcodeSize_eq_cellsOf hnum] at hout
  exact step_of_fetch_error hrun hlt (fetchInstr_of_missing_cell hlt hd hout)

/-- A legal word with all its cells inside memory (R83, R104): the step is the meaning of the instruction with its
opcode, its digits and the parameter words that follow it. -/
theorem step_of_legal_word (hat : AtWord s w) (hw : 0 ≤ w.toInt) (hop : w.toNat % 100 ∈ opcodes)
    (hgood : ¬ BadDigit w) (hin : s.pc.toNat + cellsOf (w.toNat % 100) ≤ s.mem.size.val) :
    ∃ i, step s = exec i s ∧ i.opcodeNumber = w.toNat % 100 ∧ i.modes.m1.digit = w.toNat / 100 % 10 ∧
      i.modes.m2.digit = w.toNat / 1000 % 10 ∧ i.modes.m3.digit = w.toNat / 10000 % 10 ∧
      ∀ k, k < i.params.length → i.params[k]? = memRead s ((s.pc.toNat + 1 + k : Nat) : Int) := by
  obtain ⟨hrun, hlt, rfl⟩ := atWord_iff.1 hat
  obtain ⟨op, ms, hd⟩ := decodeWord_of_legal hw hop hgood
  obtain ⟨-, hnum, h1, h2, h3⟩ := decodeWord_eq_ok.1 hd
  rw [← opcodeSize_eq_cellsOf hnum] at hin
  obtain ⟨i, hf, rfl, -, hop', -, hparams⟩ := exists_fetchInstr_ok hlt hd hin
  exact ⟨i, step_of_fetch_ok hrun hlt hf, opcodeOfNumber_inj hop' hnum, h1.symm, h2.symm, h3.symm, hparams⟩

end AtWord

/-! ### A store into the next instruction -/

/-- After a write to parameter cell `k` of the instruction at `PC`, the fetch answers it with that parameter replaced:
its word and its other parameters are in other cells. -/
theorem fetchInstr_setCell_param {s : State} {i : Instr} {k : Nat} (v : Word) (h : s.pc.toNat < s.mem.size.val)
    (hf : fetchInstr s = .ok i) (hk : k < i.params.length) :
    ∃ i', fetchInstr (s.setCell (s.pc.toNat + 1 + k) v) = .ok i' ∧ i'.opcodeNumber = i.opcodeNumber ∧
      i'.modes = i.modes ∧ i'.params = i.params.set k v := by
  have hin : s.pc.toNat + (i.params.length + 1) ≤ s.mem.size.val := fetchInstr_ok_inside h hf
  obtain ⟨op, hd, hop, hsize, hparams⟩ := fetchedAs_of_fetchInstr_ok h hf
  have hd' : decodeWord ((s.setCell (s.pc.toNat + 1 + k) v).mem.read s.pc.toNat) = .ok (op, i.modes) := by
    rw [State.setCell_mem, Memory.read_write_other (by omega), hd]
  obtain ⟨i', hf', hms, -, hop', hsize', hparams'⟩ :=
    exists_fetchInstr_ok (s := s.setCell (s.pc.toNat + 1 + k) v) h hd' (hsize ▸ hin)
  refine ⟨i', hf', opcodeOfNumber_inj hop' hop, hms, List.ext_getElem? fun j => ?_⟩
  by_cases hj : j < i'.params.length
  · rw [hparams' j hj, State.setCell_pc]
    by_cases hjk : k = j
    · subst hjk
      rw [memRead_of_write_self rfl (by omega), List.getElem?_set_self hk]
    · obtain ⟨-, hsame⟩ := cellsSameBut_setCell s (s.pc.toNat + 1 + k) v
      rw [hsame _ (by omega), List.getElem?_set_ne hjk, hparams j (by omega)]
  · rw [List.getElem?_eq_none (by omega), List.getElem?_eq_none (by rw [List.length_set]; omega)]

/-- Settles O29: a write to the cell at `PC` makes its value the word the step is at, and changes no parameter cell; a
write to a parameter cell replaces that parameter. -/
theorem storeIsSeenByNextFetch : Obligations.StoreIsSeenByNextFetch := by
  intro s t a v hwrite hrun
  obtain ⟨c, rfl, hc, rfl⟩ := memWrite_eq_some.1 hwrite
  refine ⟨fun hpc => ?_, fun i k hlt hf hk hcell => ?_⟩
  · obtain rfl : s.pc.toNat = c := by exact_mod_cast hpc
    obtain ⟨-, hsame⟩ := cellsSameBut_setCell s s.pc.toNat v
    have hat : AtWord (s.setCell s.pc.toNat v) v := ⟨hrun, memRead_of_write_self rfl hc⟩
    refine ⟨step_of_invalidOpcode hat, step_of_badDigit hat, fun hw hop hgood =>
      ⟨step_of_missing_cell hat hw hop hgood, fun hin => ?_⟩⟩
    obtain ⟨i, hstep, hnum, h1, h2, h3, hparams⟩ := step_of_legal_word hat hw hop hgood hin
    exact ⟨i, hstep, hnum, h1, h2, h3, fun k hk => (hparams k hk).trans (hsame _ (by rw [State.setCell_pc]; omega))⟩
  · obtain rfl : s.pc.toNat + 1 + k = c := by exact_mod_cast hcell
    obtain ⟨i', hf', hi'⟩ := fetchInstr_setCell_param v hlt hf hk
    exact ⟨i', step_of_fetch_ok hrun hlt hf', hi'⟩

end Sys2Proof.Machine
end

section
/-!
PROOFS. The encoding (30_encoding.md): which words decode and how each failing one fails (R72, R79, R80, R82), what the
decoded fields are (R73, R74), the opcode map (R76), the digits not examined (R75) and the legal residues (R83).
-/

namespace Sys2Proof

open Sys2Proof.Machine Sys2Proof.Claims

/-! ### The decoder's failures -/

/-- Settles O3: the clauses are proved once each: the decoder's two refusals and its success. -/
theorem decoderFailuresInOrder : Obligations.DecoderFailuresInOrder :=
  fun _ => ⟨decodeWord_of_invalidOpcode, decodeWord_of_badDigit, decodeWord_of_legal⟩

/-- The words that decode (R83): not negative, a known opcode, three digits that are modes. Every other word is in one
of the two failing cases. -/
theorem exists_decodeWord_eq_ok {w : Word} :
    (∃ op ms, decodeWord w = .ok (op, ms)) ↔ 0 ≤ w.toInt ∧ w.toNat % 100 ∈ opcodes ∧ ¬ BadDigit w := by
  refine ⟨fun ⟨op, ms, hd⟩ => ?_, fun ⟨hw, hop, hgood⟩ => decodeWord_of_legal hw hop hgood⟩
  obtain ⟨hw, hnum, -⟩ := decodeWord_eq_ok.1 hd
  have hop : w.toNat % 100 ∈ opcodes := opcodeOfNumber_isSome.1 ⟨op, hnum⟩
  exact ⟨hw, hop, fun hbad => nomatch hd.symm.trans (decodeWord_of_badDigit hw hop hbad)⟩

/-! ### The decoded fields -/

theorem Mode.eq_position_iff {m : Mode} : m = .position ↔ m.digit = 0 := (Mode.digit_inj (m' := .position)).symm

theorem Mode.eq_immediate_iff {m : Mode} : m = .immediate ↔ m.digit = 1 := (Mode.digit_inj (m' := .immediate)).symm

/-- Settles O4: the digits of the word are the digits its modes are written as. -/
theorem decodedFieldsAreDecimalDigits : Obligations.DecodedFieldsAreDecimalDigits := by
  intro w op ms hd
  obtain ⟨hw, hnum, h1, h2, h3⟩ := decodeWord_eq_ok.1 hd
  rw [h1, h2, h3]
  exact ⟨hw, opcodeOfNumber_eq_some hnum, Mode.eq_position_iff, Mode.eq_immediate_iff, Mode.eq_position_iff,
    Mode.eq_immediate_iff, Mode.eq_position_iff, Mode.eq_immediate_iff⟩

/-! ### The opcode map -/

/-- The map pairs an instruction with its own opcode number and its own parameter words (R70, R76). -/
theorem matchesMap_iff {w : Word} {ps : List Word} {i : Instr} :
    MatchesMap w ps i ↔ w.toNat % 100 = i.opcodeNumber ∧ i.params = ps.take (i.size - 1) := by
  cases i <;> simp [MatchesMap, Instr.opcodeNumber, Instr.params, Instr.size, eq_comm (b := List.take _ ps)]

/-- Words beyond those an instruction takes are left alone (R70). -/
theorem buildInstr_append {op : Opcode} {ms : Modes} {ps : List Word} {i : Instr} (h : buildInstr op ms ps = some i)
    (rest : List Word) : buildInstr op ms (ps ++ rest) = some i := by
  unfold buildInstr at h
  split at h <;> cases h <;> rfl

/-- Where an opcode's size's worth of cells is present, they make an instruction (R70, R77). -/
theorem exists_buildInstr {op : Opcode} {ps : List Word} (ms : Modes) (h : opcodeSize op ≤ ps.length + 1) :
    ∃ i, buildInstr op ms ps = some i := by
  obtain ⟨i, hb, -⟩ := buildInstr_of_length (op := op) (ms := ms) (ps := ps.take (opcodeSize op - 1))
    (by rw [List.length_take]; omega)
  exact ⟨i, List.take_append_drop (opcodeSize op - 1) ps ▸ buildInstr_append hb _⟩

/-- Settles O5: a decoded instruction has the number and the size of the word's opcode and takes the cells in order; a
legal word has an opcode, and with enough cells an instruction is built of it. -/
theorem opcodeMapAndSizes : Obligations.OpcodeMapAndSizes := by
  refine ⟨fun w ps i hdec => ?_, fun w ps hw hop hgood hcells => ?_⟩
  · obtain ⟨op, ms, hd, hb⟩ := decode_cons_eq_ok.1 hdec
    obtain ⟨-, hnum, -⟩ := decodeWord_eq_ok.1 hd
    obtain ⟨hop, -, hsize, -, hparams⟩ := buildInstr_eq_some hb
    rw [← hsize] at hparams
    exact ⟨matchesMap_iff.2 ⟨opcodeOfNumber_inj hnum hop, hparams⟩, hsize.trans (opcodeSize_eq_cellsOf hnum)⟩
  · obtain ⟨op, ms, hd⟩ := decodeWord_of_legal hw hop hgood
    obtain ⟨-, hnum, -⟩ := decodeWord_eq_ok.1 hd
    obtain ⟨i, hb⟩ := exists_buildInstr ms (opcodeSize_eq_cellsOf hnum ▸ hcells)
    exact ⟨i, decode_cons_eq_ok.2 ⟨op, ms, hd, hb⟩⟩

/-! ### The digits not examined -/

/-- The fields of a word are those of its residue modulo 100000 (R73, R75). -/
theorem extractDigits_mod (n : Nat) : extractDigits (n % 100000) = extractDigits n := by
  simp only [extractDigits, decimalDigit, Digits.mk.injEq]
  omega

/-- The decoder examines the sign and the fields of the word alone (R72, R73). -/
theorem decodeWord_congr {w w' : Word} (hw : 0 ≤ w.toInt) (hw' : 0 ≤ w'.toInt)
    (h : extractDigits w.toNat = extractDigits w'.toNat) : decodeWord w = decodeWord w' := by
  simp only [decodeWord, Int.not_lt.2 hw, Int.not_lt.2 hw', h]

/-- Settles O6: words with one residue have the same fields. -/
theorem highDigitsAreIgnored : Obligations.HighDigitsAreIgnored := by
  intro w w' hw hw' hres
  refine decodeWord_congr hw hw' ?_
  rw [← extractDigits_mod, hres, extractDigits_mod]

/-! ### The legal residues -/

/-- The legal residues modulo 100000 (R83): a digit 0 or 1 in each of the three places, before one of the nine
opcodes. -/
def legalResidues : List Nat :=
  (List.range 2).flatMap fun d3 => (List.range 2).flatMap fun d2 => (List.range 2).flatMap fun d1 =>
    opcodes.map fun op => d3 * 10000 + d2 * 1000 + d1 * 100 + op

theorem mem_legalResidues {r : Nat} :
    r ∈ legalResidues ↔
      ∃ d3 < 2, ∃ d2 < 2, ∃ d1 < 2, ∃ op ∈ opcodes, d3 * 10000 + d2 * 1000 + d1 * 100 + op = r := by
  simp only [legalResidues, List.mem_flatMap, List.mem_map, List.mem_range]

theorem lt_hundred_of_mem_opcodes {op : Nat} : op ∈ opcodes → op < 100 := by
  revert op
  decide

/-- A residue is legal exactly when its last two digits are an opcode and its other three are modes. -/
theorem mod_mem_legalResidues {n : Nat} :
    n % 100000 ∈ legalResidues ↔
      n % 100 ∈ opcodes ∧ n / 100 % 10 < 2 ∧ n / 1000 % 10 < 2 ∧ n / 10000 % 10 < 2 := by
  rw [mem_legalResidues]
  constructor
  · rintro ⟨d3, h3, d2, h2, d1, h1, op, hop, hn⟩
    have := lt_hundred_of_mem_opcodes hop
    obtain rfl : n % 100 = op := by omega
    exact ⟨hop, by omega, by omega, by omega⟩
  · rintro ⟨hop, h1, h2, h3⟩
    exact ⟨_, h3, _, h2, _, h1, _, hop, by omega⟩

/-- Settles O7: the list is `legalResidues`, and the legal digits of the residue are those of the word. -/
theorem legalResiduesAreSeventyTwo : Obligations.LegalResiduesAreSeventyTwo := by
  refine ⟨legalResidues, by decide, rfl, by decide, fun w => ?_⟩
  simp only [exists_decodeWord_eq_ok, mod_mem_legalResidues, badDigit_iff, not_or, Nat.not_le]

end Sys2Proof
end

section
/-!
PROOFS. The execute loop (40_execute_loop.md): the implicit halt at its head (R101), the instruction a step fetches from
the cells at `PC` (R100, R102, R106), and the fault of an instruction cut off by the end of memory (R104).
-/

namespace Sys2Proof.Machine

open Sys2Proof.Claims

/-! ### A truncated instruction -/

/-- A fetched instruction lies inside memory, with its size read from its word (R77, R104). -/
theorem fetchInstr_ok_inside_cellsOf {s : State} {i : Instr} (h : s.pc.toNat < s.mem.size.val)
    (hf : fetchInstr s = .ok i) :
    s.pc.toNat + cellsOf ((s.mem.read s.pc.toNat).toNat % 100) ≤ s.mem.size.val := by
  obtain ⟨op, hi⟩ := fetchedAs_of_fetchInstr_ok h hf
  obtain ⟨-, hnum, -⟩ := decodeWord_eq_ok.1 hi.word
  have hsize : i.size = cellsOf _ := hi.size.trans (opcodeSize_eq_cellsOf hnum)
  exact hsize ▸ fetchInstr_ok_inside h hf

/-- Settles O11: a legal word with a cell missing makes the fetch fail, and a fetch that succeeds has read all its
cells. -/
theorem truncatedInstructionFaults : Obligations.TruncatedInstructionFaults := by
  intro s w hat hw hop hgood
  refine ⟨step_of_missing_cell hat hw hop hgood, fun i hf => ?_⟩
  obtain ⟨-, hlt, rfl⟩ := atWord_iff.1 hat
  exact fetchInstr_ok_inside_cellsOf hlt hf

/-! ### The instruction in the cells at `PC` -/

/-- The cells of a decoded instruction, all there from `PC` on, lie inside memory (R43). -/
theorem inside_of_cells {s : State} {i : Instr} {cs : List Word} (hdec : decode cs = .ok i)
    (hcells : ∀ k, k < i.size → memRead s ((s.pc.toNat + k : Nat) : Int) = cs[k]?) :
    s.pc.toNat < s.mem.size.val ∧ s.pc.toNat + i.size ≤ s.mem.size.val := by
  cases cs with
  | nil => cases hdec
  | cons w ps =>
    obtain ⟨op, ms, -, hb⟩ := decode_cons_eq_ok.1 hdec
    obtain ⟨-, -, -, hlen, -⟩ := buildInstr_eq_some hb
    have hlast := hcells i.params.length (Nat.lt_succ_self _)
    rw [List.getElem?_eq_getElem hlen] at hlast
    obtain ⟨k, hk, hlt, -⟩ := memRead_eq_some.1 hlast
    simp only [Instr.size]
    omega

/-- A read of consecutive cells answers the beginning of any list that agrees with them (R104). -/
theorem eq_take_of_readCells {s : State} {a n : Nat} {rs ps : List Word} (hr : readCells s a n = some rs)
    (hps : ∀ k, k < n → memRead s ((a + k : Nat) : Int) = ps[k]?) : rs = ps.take n := by
  obtain ⟨hlen, hget⟩ := readCells_get hr
  refine List.ext_getElem? fun k => ?_
  by_cases hk : k < n
  · rw [List.getElem?_take_of_lt hk, ← hget k hk, hps k hk]
  · rw [List.getElem?_eq_none (by omega), List.getElem?_eq_none (by rw [List.length_take]; omega)]

/-- A fetch answers the instruction that the cells from `PC` on decode to (R102 to R104): it reads the parameter words
`decode` takes, and leaves the cells after them alone. -/
theorem fetchInstr_of_decode {s : State} {i : Instr} {cs : List Word} (hdec : decode cs = .ok i)
    (hcells : ∀ k, k < i.size → memRead s ((s.pc.toNat + k : Nat) : Int) = cs[k]?) : fetchInstr s = .ok i := by
  obtain ⟨hlt, hin⟩ := inside_of_cells hdec hcells
  cases cs with
  | nil => cases hdec
  | cons w ps =>
    obtain ⟨op, ms, hd, hb⟩ := decode_cons_eq_ok.1 hdec
    obtain ⟨-, -, hsize, -⟩ := buildInstr_eq_some hb
    obtain ⟨c, hc, -, rfl⟩ := memRead_eq_some.1 (hcells 0 (Nat.succ_pos _))
    obtain rfl : s.pc.toNat = c := by omega
    rcases fetchInstr_cases hlt with ⟨e, hd', -⟩ | ⟨op', ms', hd', hout, -⟩ | ⟨op', ms', rs, j, hd', -, hr, hb', -, hf⟩
    all_goals cases hd.symm.trans hd'
    · omega
    · have htake : rs = ps.take (opcodeSize op - 1) := eq_take_of_readCells hr fun k hk => by
        rw [Nat.add_assoc, Nat.add_comm 1 k, hcells (k + 1) (by omega), List.getElem?_cons_succ]
      have hall : buildInstr op ms ps = some j :=
        List.take_append_drop (opcodeSize op - 1) ps ▸ buildInstr_append (htake ▸ hb') _
      cases hb.symm.trans hall
      exact hf

/-- Settles O9: the fetch answers the decoded instruction, and the step is its meaning. -/
theorem stepRunsDecodedInstruction : Obligations.StepRunsDecodedInstruction := by
  intro s i cs hrun hdec hcells
  obtain ⟨hlt, -⟩ := inside_of_cells hdec hcells
  exact step_of_fetch_ok hrun hlt (fetchInstr_of_decode hdec hcells)

/-! ### The loop head -/

/-- Settles O12: the loop head test comes before any fetch. -/
theorem implicitHaltAtLoopHead : Obligations.ImplicitHaltAtLoopHead :=
  fun _ => step_of_atEnd

end Sys2Proof.Machine
end

section
/-!
PROOFS. The arithmetic instructions (41_arithmetic.md): format F4 over its result function (R57, R105, R107), the step
at a word of that format (R120, R121), and the integer laws of the ALU (R122 to R124).
-/

namespace Sys2Proof.Machine

open Sys2Proof.Claims

/-! ### Format F4 -/

theorem destination_eq_none {s : State} {r : Word} : destination s r = none ↔ Outside s r.toInt := cellIndex_eq_none

section F4

variable {s : State} {ms : Modes} {r1 r2 r3 p1 p2 : Word}

/-- Format F4 completes when its sources resolve and its destination is a cell: the destination alone is written. -/
theorem storeResult_of_resolveTwo (f : Word → Word → Word) (hp : resolveTwo s ms r1 r2 = some (p1, p2))
    (hr3 : ¬ Outside s r3.toInt) :
    ∃ t, storeResult f ms r1 r2 r3 s = .next t ∧ StoredAndAdvanced s t r3.toInt (f p1 p2) 4 ∧ PortsSame s t := by
  rcases storeResult_cases f ms r1 r2 r3 s with ⟨-, hnone | hnone⟩ | ⟨q1, q2, k, hq, hk, he⟩
  · cases hp.symm.trans hnone
  · exact absurd (destination_eq_none.1 hnone) hr3
  · cases hp.symm.trans hq
    obtain ⟨hcell, hlt⟩ := cellIndex_eq_some.1 hk
    refine ⟨_, he, ?_, rfl, rfl, rfl, rfl⟩
    rw [hcell]
    exact ⟨memRead_of_write_self rfl hlt, cellsSameBut_of_write rfl, rfl, rfl, rfl⟩

/-- A source that does not resolve, or a destination that is no cell, is `OutOfBounds` (R105). -/
theorem storeResult_of_outside (f : Word → Word → Word)
    (h : resolve s ms.m1 r1 = none ∨ resolve s ms.m2 r2 = none ∨ Outside s r3.toInt) :
    storeResult f ms r1 r2 r3 s = .next (faulted s .outOfBounds) := by
  rw [← or_assoc, ← resolveTwo_eq_none, ← destination_eq_none] at h
  rcases storeResult_cases f ms r1 r2 r3 s with ⟨he, -⟩ | ⟨q1, q2, k, hq, hk, -⟩
  · exact he
  · simp [hq, hk] at h

/-- Format F4 completes in the words of the claims: its sources denote values. -/
theorem storeResult_of_sources (f : Word → Word → Word) (h1 : Source s ms.m1 r1 p1) (h2 : Source s ms.m2 r2 p2)
    (hr3 : ¬ Outside s r3.toInt) :
    ∃ t, storeResult f ms r1 r2 r3 s = .next t ∧ StoredAndAdvanced s t r3.toInt (f p1 p2) 4 ∧ PortsSame s t :=
  storeResult_of_resolveTwo f
    (resolveTwo_eq_some.2 ⟨resolve_eq_some_iff_source.2 h1, resolve_eq_some_iff_source.2 h2⟩) hr3

end F4

/-! ### The step at the word of an instruction -/

/-- The mode digits of the word are written as these modes (R73, R74). -/
def HasModes (w : Word) (ms : Modes) : Prop :=
  w.toNat / 100 % 10 = ms.m1.digit ∧ w.toNat / 1000 % 10 = ms.m2.digit ∧ w.toNat / 10000 % 10 = ms.m3.digit

/-- Three digits that are not 2 to 9 are modes (R80). -/
theorem exists_hasModes {w : Word} (h : ¬ BadDigit w) : ∃ ms, HasModes w ms := by
  simp only [badDigit_iff, not_or, Nat.not_le] at h
  obtain ⟨h1, h2, h3⟩ := h
  obtain ⟨m1, h1⟩ := Mode.exists_digit h1
  obtain ⟨m2, h2⟩ := Mode.exists_digit h2
  obtain ⟨m3, h3⟩ := Mode.exists_digit h3
  exact ⟨⟨m1, m2, m3⟩, h1, h2, h3⟩

/-- A source of the word resolves as its digit's mode says (R46, R74). -/
theorem sourceOf_eq_resolve {s : State} {w r : Word} {k : Nat} {m : Mode} (h : w.toNat / 10 ^ k % 10 = m.digit) :
    sourceOf s w k r = resolve s m r := by
  rw [sourceOf, h]
  cases m <;> rfl

/-- Every instruction is built of its own opcode, modes and parameters (R70, R76). -/
theorem exists_buildInstr_self (i : Instr) :
    ∃ op, opcodeOfNumber i.opcodeNumber = some op ∧ buildInstr op i.modes i.params = some i := by
  cases i <;> exact ⟨_, rfl, rfl⟩

/-- Where the word at `PC` has the opcode and the digits of an instruction and the cells after it hold its parameters,
the step is the meaning of that instruction (R73, R76, R104, R106). -/
theorem step_of_word_of_instr {s : State} {w : Word} {i : Instr} (hat : AtWord s w) (hw : 0 ≤ w.toInt)
    (hop : w.toNat % 100 = i.opcodeNumber) (hmodes : HasModes w i.modes)
    (hparams : ∀ k, k < i.params.length → memRead s ((s.pc.toNat + (k + 1) : Nat) : Int) = i.params[k]?) :
    step s = exec i s := by
  obtain ⟨op, hnum, hbuild⟩ := exists_buildInstr_self i
  have hd : decodeWord w = .ok (op, i.modes) := decodeWord_eq_ok.2 ⟨hw, hop ▸ hnum, hmodes⟩
  obtain ⟨hrun, hword⟩ := hat
  refine stepRunsDecodedInstruction s i (w :: i.params) hrun (decode_cons_eq_ok.2 ⟨op, i.modes, hd, hbuild⟩) ?_
  intro k hk
  cases k with
  | zero => exact hword
  | succ k => exact hparams k (Nat.lt_of_succ_lt_succ hk)

theorem IsF4.modes {i : Instr} {ms : Modes} {r1 r2 r3 : Word} (h : IsF4 i ms r1 r2 r3) : i.modes = ms := by
  cases h <;> rfl

theorem IsF4.params {i : Instr} {ms : Modes} {r1 r2 r3 : Word} (h : IsF4 i ms r1 r2 r3) :
    i.params = [r1, r2, r3] := by
  cases h <;> rfl

/-- The rule of an F4 instruction whose meaning stores `f` of its sources, for any result that `f` meets. -/
theorem f4Rule_of_storeResult {build : Modes → Word → Word → Word → Instr} {f : Word → Word → Word} {n : Nat}
    {result : Word → Word → Word → Prop} (hn : n ∈ opcodes) (hcells : cellsOf n = 4)
    (hnum : ∀ ms r1 r2 r3, (build ms r1 r2 r3).opcodeNumber = n)
    (hF4 : ∀ ms r1 r2 r3, IsF4 (build ms r1 r2 r3) ms r1 r2 r3)
    (hexec : ∀ ms r1 r2 r3 s, exec (build ms r1 r2 r3) s = storeResult f ms r1 r2 r3 s)
    (hresult : ∀ p1 p2, result p1 p2 (f p1 p2)) : F4Rule n result := by
  rintro s w hat hw rfl
  refine ⟨step_of_badDigit hat hw hn, fun hgood hout => step_of_missing_cell hat hw hn hgood (by omega),
    fun hgood r1 r2 r3 hr1 hr2 hr3 => ?_⟩
  obtain ⟨ms, hmodes⟩ := exists_hasModes hgood
  have hstep : step s = storeResult f ms r1 r2 r3 s := by
    rw [← hexec]
    refine step_of_word_of_instr hat hw (hnum ..).symm (by rwa [(hF4 ms r1 r2 r3).modes]) ?_
    rw [(hF4 ms r1 r2 r3).params]
    intro k hk
    match k, hk with
    | 0, _ => exact hr1
    | 1, _ => exact hr2
    | 2, _ => exact hr3
  obtain ⟨h1, h2, -⟩ := hmodes
  rw [hstep, sourceOf_eq_resolve (k := 2) h1, sourceOf_eq_resolve (k := 3) h2]
  refine ⟨storeResult_of_outside f, fun p1 p2 hp1 hp2 hin => ?_⟩
  obtain ⟨t, ht⟩ := storeResult_of_resolveTwo f (resolveTwo_eq_some.2 ⟨hp1, hp2⟩) hin
  exact ⟨f p1 p2, t, hresult p1 p2, ht⟩

/-! ### `ADD` and `MUL` -/

theorem sumWord_wrapsTo (p1 p2 : Word) : WrapsTo (sumWord p1 p2) (p1.toInt + p2.toInt) :=
  (wrapIsTheCongruentWord _ _).1 rfl

theorem productWord_wrapsTo (p1 p2 : Word) : WrapsTo (productWord p1 p2) (p1.toInt * p2.toInt) :=
  (wrapIsTheCongruentWord _ _).1 rfl

/-- Settles O32: `ADD` is format F4 over the wrapped sum. -/
theorem addCompletesWithWrappedSum : Obligations.AddCompletesWithWrappedSum := by
  intro s ms r1 r2 r3 p1 p2 h1 h2 hr3
  obtain ⟨t, ht⟩ := storeResult_of_sources sumWord h1 h2 hr3
  exact ⟨_, t, sumWord_wrapsTo p1 p2, ht⟩

/-- Settles O33: `MUL` is format F4 over the wrapped product. -/
theorem mulCompletesWithWrappedProduct : Obligations.MulCompletesWithWrappedProduct := by
  intro s ms r1 r2 r3 p1 p2 h1 h2 hr3
  obtain ⟨t, ht⟩ := storeResult_of_sources productWord h1 h2 hr3
  exact ⟨_, t, productWord_wrapsTo p1 p2, ht⟩

/-- Settles O41: the rule of format F4 for `ADD`, opcode 1. -/
theorem addStepFollowsItsRule : Obligations.AddStepFollowsItsRule :=
  f4Rule_of_storeResult (build := .add) (by decide) rfl (fun _ _ _ _ => rfl) .add (fun _ _ _ _ _ => rfl)
    sumWord_wrapsTo

/-- Settles O42: the rule of format F4 for `MUL`, opcode 2. -/
theorem mulStepFollowsItsRule : Obligations.MulStepFollowsItsRule :=
  f4Rule_of_storeResult (build := .mul) (by decide) rfl (fun _ _ _ _ => rfl) .mul (fun _ _ _ _ _ => rfl)
    productWord_wrapsTo

/-! ### The integer laws -/

theorem toInt_mem_range (v : Word) : -2147483648 ≤ v.toInt ∧ v.toInt ≤ 2147483647 :=
  ⟨BitVec.le_toInt v, Int.le_of_lt_add_one BitVec.toInt_lt⟩

section Wraps

variable {v : Word} {z : Int}

/-- A result inside the `i32` range is exact (R122): two integers of that range that are congruent are equal. -/
theorem toInt_eq_of_wrapsTo (h : WrapsTo v z) (hlo : -2147483648 ≤ z) (hhi : z ≤ 2147483647) : v.toInt = z := by
  have hv := toInt_mem_range v
  obtain ⟨c, hc⟩ := h
  omega

/-- A result above the range, by less than its width, comes back negative (R124). -/
theorem toInt_neg_of_wrapsTo (h : WrapsTo v z) (hlo : 2147483647 < z) (hhi : z < 4294967296) : v.toInt < 0 := by
  have hv := toInt_mem_range v
  obtain ⟨c, hc⟩ := h
  omega

/-- A result below the range, by no more than its width, comes back not negative (R124). -/
theorem toInt_nonneg_of_wrapsTo (h : WrapsTo v z) (hhi : z < -2147483648) (hlo : -4294967296 ≤ z) : 0 ≤ v.toInt := by
  have hv := toInt_mem_range v
  obtain ⟨c, hc⟩ := h
  omega

end Wraps

/-- Two sources exchanged with their modes resolve to the exchanged values, and fail together (R105). -/
theorem resolveTwo_swap (s : State) (m1 m2 m3 : Mode) (r1 r2 : Word) :
    resolveTwo s ⟨m2, m1, m3⟩ r2 r1 = (resolveTwo s ⟨m1, m2, m3⟩ r1 r2).map Prod.swap := by
  unfold resolveTwo
  cases resolve s m1 r1 <;> cases resolve s m2 r2 <;> rfl

/-- Format F4 over a commutative result function is commutative in its sources, modes and faults included. -/
theorem storeResult_comm {f : Word → Word → Word} (hf : ∀ p1 p2, f p1 p2 = f p2 p1) (s : State) (m1 m2 m3 : Mode)
    (r1 r2 r3 : Word) : storeResult f ⟨m1, m2, m3⟩ r1 r2 r3 s = storeResult f ⟨m2, m1, m3⟩ r2 r1 r3 s := by
  unfold storeResult
  rw [resolveTwo_swap s m1 m2 m3 r1 r2]
  rcases resolveTwo s ⟨m1, m2, m3⟩ r1 r2 with _ | ⟨p1, p2⟩
  · rfl
  · simp only [Option.map_some, Prod.swap_prod_mk, hf p1 p2]

theorem sumWord_comm (p1 p2 : Word) : sumWord p1 p2 = sumWord p2 p1 := by rw [sumWord, sumWord, Int.add_comm]

theorem productWord_comm (p1 p2 : Word) : productWord p1 p2 = productWord p2 p1 := by
  rw [productWord, productWord, Int.mul_comm]

/-- Settles O51: the sum of two words is inside the range for mixed signs, and outside it by less than its width. -/
theorem additionSignsAndCommutation : Obligations.AdditionSignsAndCommutation := by
  refine ⟨fun s ms r1 r2 r3 p1 p2 h1 h2 hr3 => ?_, fun s m1 m2 m3 r1 r2 r3 =>
    ⟨storeResult_comm sumWord_comm s m1 m2 m3 r1 r2 r3, storeResult_comm productWord_comm s m1 m2 m3 r1 r2 r3⟩⟩
  obtain ⟨v, t, hv, hexec, ⟨hread, -⟩, -⟩ := addCompletesWithWrappedSum s ms r1 r2 r3 p1 p2 h1 h2 hr3
  have hp1 := toInt_mem_range p1
  have hp2 := toInt_mem_range p2
  exact ⟨v, t, hexec, hread, hv, fun _ => toInt_eq_of_wrapsTo hv (by omega) (by omega),
    fun _ _ habove => toInt_neg_of_wrapsTo hv habove (by omega),
    fun _ _ hbelow => toInt_nonneg_of_wrapsTo hv hbelow (by omega)⟩

/-- Settles O52: the word `MUL` stores is congruent to the exact product, so it is the product where that fits. -/
theorem productIsExactWhenItFits : Obligations.ProductIsExactWhenItFits := by
  intro s ms r1 r2 r3 p1 p2 h1 h2 hr3
  obtain ⟨v, t, hv, hexec, ⟨hread, -⟩, -⟩ := mulCompletesWithWrappedProduct s ms r1 r2 r3 p1 p2 h1 h2 hr3
  exact ⟨v, t, hexec, hread, hv, toInt_eq_of_wrapsTo hv⟩

end Sys2Proof.Machine
end

section
/-!
PROOFS. The port instructions (42_io.md): the meanings of `IN` and `OUT` case by case, the step at their words (R135,
R136, R138, R140), the wait (R134), and what a step does to each port (R137, R141, R143).
-/

namespace Sys2Proof.Machine

open Sys2Proof.Claims

/-! ### The meaning of `IN`, case by case -/

theorem exists_destination {s : State} {r : Word} (h : ¬ Outside s r.toInt) : ∃ k, destination s r = some k :=
  Option.ne_none_iff_exists'.1 (mt destination_eq_none.1 h)

section In

variable {s : State} {ms : Modes} {r1 v : Word} {k : Nat} {rest : List InputAnswer}

theorem execIn_of_no_destination (h : destination s r1 = none) : execIn ms r1 s = raised s .outOfBounds := by
  simp [execIn, h]

theorem execIn_of_value (hk : destination s r1 = some k) (hinput : s.input = .value v :: rest) :
    execIn ms r1 s = .next ((State.setCell { s with input := rest } k v).advance 2) := by
  simp [execIn, hk, inputRequest, hinput]

theorem execIn_of_bad (hk : destination s r1 = some k) (hinput : s.input = .bad :: rest) :
    execIn ms r1 s = raised { s with input := rest } .malformedInput := by
  simp [execIn, hk, inputRequest, hinput]

theorem execIn_of_ended (hk : destination s r1 = some k) (hinput : s.input = []) (hended : s.inputEnded = true) :
    execIn ms r1 s = raised s .malformedInput := by
  simp [execIn, hk, inputRequest, hinput, hended]

theorem execIn_of_waiting (hk : destination s r1 = some k) (hinput : s.input = []) (hopen : s.inputEnded = false) :
    execIn ms r1 s = .fault .awaitingInput := by
  simp [execIn, hk, inputRequest, hinput, hopen]

/-- With an integer next, `IN` stores it at its raw destination and consumes that answer alone (R135). -/
theorem execIn_stores_token (ms : Modes) (hr1 : ¬ Outside s r1.toInt) (hinput : s.input = .value v :: rest) :
    ∃ t, execIn ms r1 s = .next t ∧ StoredAndAdvanced s t r1.toInt v 2 ∧ t.input = rest ∧
      t.inputEnded = s.inputEnded ∧ t.output = s.output ∧ t.verdicts = s.verdicts := by
  obtain ⟨k, hk⟩ := exists_destination hr1
  obtain ⟨hcell, hlt⟩ := cellIndex_eq_some.1 hk
  refine ⟨_, execIn_of_value hk hinput, ?_, rfl, rfl, rfl, rfl⟩
  rw [hcell]
  exact ⟨memRead_of_write_self rfl hlt, cellsSameBut_of_write rfl, rfl, rfl, rfl⟩

end In

/-- Settles O36: `exec` of `IN` is `execIn`, with an integer next. -/
theorem inCompletesWithToken : Obligations.InCompletesWithToken :=
  fun _ ms _ _ _ hr1 hinput => execIn_stores_token ms hr1 hinput

/-! ### The meaning of `OUT`, case by case -/

section Out

variable {s : State} {ms : Modes} {r1 p1 : Word}

theorem nextVerdict_eq_accepted (h : s.verdicts.head? ≠ some .rejected) : nextVerdict s = .accepted := by
  unfold nextVerdict
  split
  · rfl
  · next d ds hverdicts =>
    cases d with
    | accepted => rfl
    | rejected => exact absurd (by rw [hverdicts]; rfl) h

theorem execOut_of_unresolved (hp : resolve s ms.m1 r1 = none) : execOut ms r1 s = raised s .outOfBounds := by
  simp [execOut, hp]

theorem execOut_of_accepted (hp : resolve s ms.m1 r1 = some p1) (hv : nextVerdict s = .accepted) :
    execOut ms r1 s =
      .next (State.advance { s with output := s.output ++ [p1], verdicts := s.verdicts.tail } 2) := by
  simp [execOut, hp, outputEmit, hv]

theorem execOut_of_rejected (hp : resolve s ms.m1 r1 = some p1) (hv : nextVerdict s = .rejected) :
    execOut ms r1 s = raised { s with verdicts := s.verdicts.tail } .outputWriteFailure := by
  simp [execOut, hp, outputEmit, hv]

end Out

/-- Settles O37: the source resolves to what it denotes, and no rejection is next. -/
theorem outCompletesWithSource : Obligations.OutCompletesWithSource :=
  fun _ _ _ _ hp hv => execOut_of_accepted (resolve_eq_some_iff_source.2 hp) (nextVerdict_eq_accepted hv)

/-! ### The step at the word of `IN` and of `OUT` -/

/-- The step at the word of an instruction with one parameter (R70, R104). -/
theorem step_of_one_param_word {s : State} {w r1 : Word} {i : Instr} (hat : AtWord s w) (hw : 0 ≤ w.toInt)
    (hop : w.toNat % 100 = i.opcodeNumber) (hmodes : HasModes w i.modes) (hparams : i.params = [r1])
    (hr1 : Param s 1 r1) : step s = exec i s := by
  refine step_of_word_of_instr hat hw hop hmodes ?_
  rw [hparams]
  intro k hk
  match k, hk with
  | 0, _ => exact hr1

/-- Settles O47: at a legal word with its parameter in memory the step is `execIn`, case by case. -/
theorem inStepFollowsItsRule : Obligations.InStepFollowsItsRule := by
  intro s w hat hw hop
  have hknown : w.toNat % 100 ∈ opcodes := by rw [hop]; decide
  have hcells : cellsOf (w.toNat % 100) = 2 := by rw [hop]; rfl
  refine ⟨step_of_badDigit hat hw hknown, fun hgood hout => step_of_missing_cell hat hw hknown hgood (by omega),
    fun hgood r1 hr1 => ?_⟩
  obtain ⟨ms, hmodes⟩ := exists_hasModes hgood
  have hstep : step s = execIn ms r1 s := step_of_one_param_word (i := .inp ms r1) hat hw hop hmodes rfl hr1
  rw [hstep]
  refine ⟨fun hout => execIn_of_no_destination (destination_eq_none.2 hout), fun hin => ?_⟩
  obtain ⟨k, hk⟩ := exists_destination hin
  refine ⟨fun rest hinput => execIn_of_bad hk hinput, execIn_of_ended hk, fun hinput hopen t ht => ?_,
    fun v rest hinput => execIn_stores_token ms hin hinput⟩
  cases (execIn_of_waiting hk hinput hopen).symm.trans ht

/-- Settles O48: at a legal word with its parameter in memory the step is `execOut`, case by case. -/
theorem outStepFollowsItsRule : Obligations.OutStepFollowsItsRule := by
  intro s w hat hw hop
  have hknown : w.toNat % 100 ∈ opcodes := by rw [hop]; decide
  have hcells : cellsOf (w.toNat % 100) = 2 := by rw [hop]; rfl
  refine ⟨step_of_badDigit hat hw hknown, fun hgood hout => step_of_missing_cell hat hw hknown hgood (by omega),
    fun hgood r1 hr1 => ?_⟩
  obtain ⟨ms, hmodes⟩ := exists_hasModes hgood
  have hstep : step s = execOut ms r1 s := step_of_one_param_word (i := .out ms r1) hat hw hop hmodes rfl hr1
  obtain ⟨h1, -, -⟩ := hmodes
  rw [hstep, sourceOf_eq_resolve (k := 2) h1]
  refine ⟨execOut_of_unresolved, fun p1 rest hp hverdicts => ?_, fun p1 rest hp hverdicts => ?_⟩
  · rw [execOut_of_rejected hp (by rw [nextVerdict, hverdicts]), hverdicts]
    rfl
  · rw [execOut_of_accepted hp (by rw [nextVerdict, hverdicts]), hverdicts]
    rfl

/-! ### The wait -/

/-- A waiting machine is at an `IN` whose destination is a cell, and runs that `IN` whatever the ports hold (R134). -/
theorem State.Waiting.exists_execIn {s : State} (h : s.Waiting) :
    ∃ ms r1, fetchInstr s = .ok (.inp ms r1) ∧ ¬ Outside s r1.toInt ∧ s.pc.toNat + 2 ≤ s.mem.size.val ∧
      ∀ t : State, t.mem = s.mem → t.pc = s.pc → t.run = s.run → step t = execIn ms r1 t := by
  obtain ⟨hrun, hlt, -, -, ms, r1, hf, hlo, hhi⟩ := h
  refine ⟨ms, r1, hf, by rw [Outside]; omega, fetchInstr_ok_inside hlt hf, fun t hm hp hr => ?_⟩
  exact step_of_fetch_ok (hr.trans hrun) (by rw [hm, hp]; exact hlt) ((fetchInstr_congr hm hp).trans hf)

/-- An open stream takes the answer supplied (R131). -/
theorem State.supplyAnswer_of_open {s : State} (h : s.inputEnded = false) (a : InputAnswer) :
    s.supplyAnswer a = { s with input := s.input ++ [a] } := by
  simp [State.supplyAnswer, h]

/-- Settles O16: the `IN` at `PC` is the step before the answer and after it, and the queue then holds that answer
alone. -/
theorem waitIsLiftedByAnswer : Obligations.WaitIsLiftedByAnswer := by
  intro s hwait
  obtain ⟨ms, r1, hf, hr1, hin, hstep⟩ := hwait.exists_execIn
  obtain ⟨hrun, -, hinput, hopen, -⟩ := hwait
  obtain ⟨k, hk⟩ := exists_destination hr1
  have hsupply (a : InputAnswer) : step (s.supplyAnswer a) = execIn ms r1 { s with input := [a] } := by
    rw [State.supplyAnswer_of_open hopen, hinput]
    exact hstep { s with input := [a] } rfl rfl rfl
  refine ⟨hrun, fun t ht => ?_, fun v => ?_, ?_, ?_⟩
  · rw [hstep s rfl rfl rfl, execIn_of_waiting hk hinput hopen] at ht
    cases ht
  · obtain ⟨t, ht, ⟨hread, -, hpc, htrun, -⟩, htinput, -⟩ :=
      execIn_stores_token (s := { s with input := [.value v] }) ms hr1 rfl
    refine ⟨t, ms, r1, hf, (hsupply _).trans ht, hread, ?_, htrun.trans hrun, htinput⟩
    rw [hpc]
    exact State.advance_pc_toNat hin
  · rw [hsupply, execIn_of_bad (s := { s with input := [.bad] }) hk rfl, ← hinput]
    rfl
  · rw [hstep s.endInput rfl rfl rfl]
    exact execIn_of_ended (s := s.endInput) hk hinput rfl

/-! ### What a step sees of the ports -/

/-- An outcome with its next state changed. -/
def mapNext (g : State → State) : StepOutcome → StepOutcome
  | .next s => .next (g s)
  | .fault r => .fault r
  | .refused r => .refused r

theorem mapNext_eq_next {g : State → State} {o : StepOutcome} {t : State} :
    mapNext g o = .next t ↔ ∃ s, o = .next s ∧ g s = t := by
  cases o <;> simp [mapNext]

/-- The state with its queue of answers, its end mark and its output log changed. -/
def State.mapStreams (inp : List InputAnswer → List InputAnswer) (ended : Bool → Bool) (out : List Word → List Word)
    (s : State) : State :=
  { s with input := inp s.input, inputEnded := ended s.inputEnded, output := out s.output }

section Streams

variable {inp : List InputAnswer → List InputAnswer} {ended : Bool → Bool} {out : List Word → List Word} (s : State)

/-- Format F4 sees no port. -/
theorem storeResult_mapStreams (f : Word → Word → Word) (ms : Modes) (r1 r2 r3 : Word) :
    storeResult f ms r1 r2 r3 (s.mapStreams inp ended out) =
      mapNext (State.mapStreams inp ended out) (storeResult f ms r1 r2 r3 s) := by
  have hp : resolveTwo (s.mapStreams inp ended out) ms r1 r2 = resolveTwo s ms r1 r2 := resolveTwo_congr rfl ms r1 r2
  have hd : destination (s.mapStreams inp ended out) r3 = destination s r3 := rfl
  rw [storeResult, storeResult, hp, hd]
  rcases resolveTwo s ms r1 r2 with _ | ⟨p1, p2⟩
  · rfl
  · cases destination s r3 <;> rfl

/-- Format F3 sees no port. -/
theorem jumpWhen_mapStreams (c : Word → Bool) (ms : Modes) (r1 r2 : Word) :
    jumpWhen c ms r1 r2 (s.mapStreams inp ended out) =
      mapNext (State.mapStreams inp ended out) (jumpWhen c ms r1 r2 s) := by
  have hp : resolveTwo (s.mapStreams inp ended out) ms r1 r2 = resolveTwo s ms r1 r2 := resolveTwo_congr rfl ms r1 r2
  rw [jumpWhen, jumpWhen, hp]
  rcases resolveTwo s ms r1 r2 with _ | ⟨p1, p2⟩
  · rfl
  · dsimp only
    split
    · split <;> rfl
    · rfl

/-- `OUT` sees no input, and appends to the log it finds. -/
theorem execOut_mapStreams (hout : ∀ log v, out (log ++ [v]) = out log ++ [v]) (ms : Modes) (r1 : Word) :
    execOut ms r1 (s.mapStreams inp ended out) = mapNext (State.mapStreams inp ended out) (execOut ms r1 s) := by
  rcases execOut_cases ms r1 s with ⟨hp, he⟩ | ⟨p1, hp, hv, he⟩ | ⟨p1, hp, hv, he⟩
  · rw [he, execOut_of_unresolved (s := s.mapStreams inp ended out) hp]
    rfl
  · rw [he, execOut_of_accepted (s := s.mapStreams inp ended out) hp hv]
    simp [mapNext, State.mapStreams, State.advance, hout]
  · rw [he, execOut_of_rejected (s := s.mapStreams inp ended out) hp hv]
    rfl

/-- `IN` sees no output. -/
theorem execIn_mapStreams (ms : Modes) (r1 : Word) :
    execIn ms r1 (s.mapStreams id id out) = mapNext (State.mapStreams id id out) (execIn ms r1 s) := by
  rcases execIn_cases ms r1 s with ⟨hk, he⟩ | ⟨k, v, rest, hk, hi, he⟩ | ⟨k, rest, hk, hi, he⟩ | ⟨k, hk, hi, hn, he⟩ |
    ⟨k, hk, hi, hn, he⟩
  · rw [he, execIn_of_no_destination (s := s.mapStreams id id out) hk]
    rfl
  · rw [he, execIn_of_value (s := s.mapStreams id id out) hk hi]
    rfl
  · rw [he, execIn_of_bad (s := s.mapStreams id id out) hk hi]
    rfl
  · rw [he, execIn_of_ended (s := s.mapStreams id id out) hk hi hn]
    rfl
  · rw [he, execIn_of_waiting (s := s.mapStreams id id out) hk hi hn]
    rfl

/-- No meaning sees the log but to append to it, and none but `IN` sees the input (R137, R143). -/
theorem exec_mapStreams {i : Instr} (hin : (∀ ms r1, i ≠ .inp ms r1) ∨ (inp = id ∧ ended = id))
    (hout : ∀ log v, out (log ++ [v]) = out log ++ [v]) :
    exec i (s.mapStreams inp ended out) = mapNext (State.mapStreams inp ended out) (exec i s) := by
  cases i with
  | add | mul | lt | eq => exact storeResult_mapStreams s ..
  | jt | jf => exact jumpWhen_mapStreams s ..
  | hlt => rfl
  | out ms r1 => exact execOut_mapStreams s hout ms r1
  | inp ms r1 =>
    obtain ⟨rfl, rfl⟩ := hin.resolve_left fun h => h ms r1 rfl
    exact execIn_mapStreams s ms r1

/-- No step sees the log but to append to it, and none but that of an `IN` sees the input. -/
theorem step_mapStreams (hin : (∀ ms r1, fetchInstr s ≠ .ok (.inp ms r1)) ∨ (inp = id ∧ ended = id))
    (hout : ∀ log v, out (log ++ [v]) = out log ++ [v]) :
    step (s.mapStreams inp ended out) = mapNext (State.mapStreams inp ended out) (step s) := by
  have hrun : isRunning (s.mapStreams inp ended out) = isRunning s := rfl
  have hend : atEnd (s.mapStreams inp ended out) = atEnd s := rfl
  have hfetch : fetchInstr (s.mapStreams inp ended out) = fetchInstr s := fetchInstr_congr rfl rfl
  rw [step, step, hfetch, hrun, hend]
  split
  · split
    · rfl
    · cases hf : fetchInstr s with
      | error e => rfl
      | ok i =>
        refine exec_mapStreams s (hin.imp_left fun h ms r1 hi => h ms r1 ?_) hout
        rw [hf, hi]
  · rfl

end Streams

/-- Settles O24: a step of no `IN` does the same with another input. With its own input in that place it is itself, so its
next state has that input too. -/
theorem onlyInTouchesInput : Obligations.OnlyInTouchesInput := by
  intro s t answers ended hin h
  have hstep (answers : List InputAnswer) (ended : Bool) :
      step { s with input := answers, inputEnded := ended } = .next { t with input := answers, inputEnded := ended } := by
    have := step_mapStreams (inp := fun _ => answers) (ended := fun _ => ended) (out := id) s (.inl hin) fun _ _ => rfl
    rwa [h] at this
  have hself : t = { t with input := s.input, inputEnded := s.inputEnded } := by
    simpa [h] using hstep s.input s.inputEnded
  exact ⟨by rw [hself], by rw [hself], hstep answers ended⟩

/-- Settles O25: every step is the step from the empty log with the log put in front of its tokens. -/
theorem outputLogIsWriteOnly : Obligations.OutputLogIsWriteOnly := by
  intro s t h
  have hstep (log : List Word) : step { s with output := log } =
      mapNext (State.mapStreams id id (log ++ ·)) (step { s with output := [] }) := by
    rw [← step_mapStreams _ (.inr ⟨rfl, rfl⟩) fun _ _ => (List.append_assoc ..).symm]
    simp [State.mapStreams]
  obtain ⟨u, hu, rfl⟩ := mapNext_eq_next.1 ((hstep s.output).symm.trans h)
  exact ⟨u.output, rfl, fun log => by rw [hstep log, hu]; rfl⟩

/-! ### What a step appends to the log -/

/-- What a meaning does to the log: an `OUT` that completes appends its source's value, and nothing else changes it. -/
theorem ExecResult.output_cases {s t : State} {i : Instr} (h : ExecResult s i t) :
    (∃ ms r1 v, i = .out ms r1 ∧ Source s ms.m1 r1 v ∧ t.run = s.run ∧ t.output = s.output ++ [v]) ∨
    (t.output = s.output ∧ (t.run = .faulted ∨ ∀ ms r1, i ≠ .out ms r1)) := by
  cases h with
  | emitted ms hp => exact .inl ⟨ms, _, _, rfl, resolve_eq_some_iff_source.1 hp, rfl, rfl⟩
  | f4Fault | jumpFault | inFault | inBad | inEnded | outFault | outRejected => exact .inr ⟨rfl, .inl rfl⟩
  | stored hi | jumped hi | fellThrough hi => exact .inr ⟨rfl, .inr fun _ _ e => by subst e; cases hi⟩
  | inStored | halted => exact .inr ⟨rfl, .inr fun _ _ e => by cases e⟩

/-- What a step does to the log (R141). -/
theorem step_output_cases {s t : State} (h : step s = .next t) :
    (∃ ms r1 v, s.pc.toNat < s.mem.size.val ∧ fetchInstr s = .ok (.out ms r1) ∧ Source s ms.m1 r1 v ∧
      t.run = .running ∧ t.output = s.output ++ [v]) ∨
    (t.output = s.output ∧
      (t.run = .faulted ∨ s.mem.size.val ≤ s.pc.toNat ∨ ∀ ms r1, fetchInstr s ≠ .ok (.out ms r1))) := by
  obtain ⟨hrun, ⟨hend, rfl⟩ | ⟨-, e, -, rfl⟩ | ⟨hlt, i, hf, -, hexec⟩⟩ := step_cases h
  · exact .inr ⟨rfl, .inr (.inl hend)⟩
  · exact .inr ⟨rfl, .inl rfl⟩
  · rcases (exec_inv hexec).output_cases with ⟨ms, r1, v, rfl, hv, hrun', hout⟩ | ⟨hout, hwhy⟩
    · exact .inl ⟨ms, r1, v, hlt, hf, hv, hrun'.trans hrun, hout⟩
    · refine .inr ⟨hout, hwhy.imp_right fun hi => .inr fun ms r1 hf' => ?_⟩
      cases hf.symm.trans hf'
      exact hi ms r1 rfl

/-- Settles O26, by the two cases of `step_output_cases`. -/
theorem oneTokenPerOut : Obligations.OneTokenPerOut := by
  intro s t h
  rcases step_output_cases h with ⟨ms, r1, v, hlt, hf, hv, hrun, hout⟩ | ⟨hout, hwhy⟩
  · refine ⟨fun ms' r1' _ hf' _ => ?_, ?_⟩
    · cases hf.symm.trans hf'
      exact ⟨v, hv, hout⟩
    · rintro (hfault | hend | hno)
      · simp [hrun] at hfault
      · omega
      · exact absurd hf (hno ms r1)
  · refine ⟨fun ms r1 hlt hf hrun => ?_, fun _ => hout⟩
    rcases hwhy with hfault | hend | hno
    · exact absurd hfault hrun
    · omega
    · exact absurd hf (hno ms r1)

end Sys2Proof.Machine
end

section
/-!
PROOFS. The text side of the ports (42_io.md): the output numeral and the output stream (R139), and the line-level
contract of `ParseLine` (R132, R133).
-/

namespace Sys2Proof.Machine

open Sys2Proof.Claims

/-! ### Digits and their value -/

theorem digitChar_toNat {d : Nat} (h : d < 10) : (digitChar d).toNat = 48 + d := by
  interval_cases d <;> rfl

theorem isDigit_digitChar {d : Nat} (h : d < 10) : IsDigit (digitChar d) := by
  rw [IsDigit, digitChar_toNat h]
  omega

theorem not_isDigit_minus : ¬ IsDigit '-' := by simp [IsDigit]

theorem not_isDigit_plus : ¬ IsDigit '+' := by simp [IsDigit]

/-- One more digit at the end counts the others ten times. -/
theorem digitsValue_concat (cs : List Char) (c : Char) :
    digitsValue (cs ++ [c]) = digitsValue cs * 10 + (c.toNat - 48) := by
  simp [digitsValue]

/-- A number below ten has one digit, which is canonical, 0 included. -/
theorem digitChar_spec {d : Nat} (h : d < 10) : CanonicalDigits [digitChar d] ∧ digitsValue [digitChar d] = d := by
  simp [CanonicalDigits, isDigit_digitChar h, digitsValue, digitChar_toNat h]

/-- A digit appended to a canonical numeral that does not denote 0 leaves it canonical: its first digit is the same. -/
theorem canonicalDigits_concat {cs : List Char} {c : Char} (h : CanonicalDigits cs) (hc : IsDigit c)
    (hpos : digitsValue cs ≠ 0) : CanonicalDigits (cs ++ [c]) := by
  obtain ⟨hne, hdigits, hhead⟩ := h
  refine ⟨by simp, List.forall_mem_append.2 ⟨hdigits, by simpa using hc⟩, fun hzero => ?_⟩
  rw [List.head?_append_of_ne_nil _ hne] at hzero
  exact absurd (by rw [hhead hzero]; rfl) hpos

/-- Enough fuel writes the canonical digits of a number (R139): the last digit is the remainder by ten, those
before it are the quotient's. -/
theorem decimalDigits_spec {fuel n : Nat} (h : n < 10 ^ (fuel + 1)) :
    CanonicalDigits (decimalDigits (fuel + 1) n) ∧ digitsValue (decimalDigits (fuel + 1) n) = n := by
  induction fuel generalizing n with
  | zero =>
    have hn : n < 10 := by omega
    rw [decimalDigits, if_pos hn]
    exact digitChar_spec hn
  | succ fuel ih =>
    rw [decimalDigits]
    split
    · next hn => exact digitChar_spec hn
    · next hn =>
      have hmod : n % 10 < 10 := by omega
      obtain ⟨hcanonical, hvalue⟩ := ih (n := n / 10) (by rw [pow_succ] at h; omega)
      refine ⟨canonicalDigits_concat hcanonical (isDigit_digitChar hmod) (by omega), ?_⟩
      rw [digitsValue_concat, hvalue, digitChar_toNat hmod]
      omega

/-- The numeral of a token: a minus sign exactly for a negative value, then canonical digits of its magnitude (R139). -/
theorem canonicalNumeral_spec (v : Word) :
    ∃ ds, CanonicalDigits ds ∧ (digitsValue ds : Int) = v.toInt.natAbs ∧
      canonicalNumeral v = if v.toInt < 0 then '-' :: ds else ds := by
  have hrange := toInt_mem_range v
  have hlt : v.toInt.natAbs < 10 ^ (9 + 1) := by omega
  obtain ⟨hcanonical, hvalue⟩ := decimalDigits_spec hlt
  exact ⟨_, hcanonical, by rw [hvalue], rfl⟩

theorem outputText_append (vs ws : List Word) : outputText (vs ++ ws) = outputText vs ++ outputText ws := by
  induction vs with
  | nil => rfl
  | cons v vs ih => simp [outputText, ih]

/-- Settles O56: ten digits are enough for a magnitude, and the stream of a log with one more token ends in its line. -/
theorem outputNumeralIsCanonical : Obligations.OutputNumeralIsCanonical := by
  refine ⟨canonicalNumeral_spec, fun s hs => ?_, fun s t v ht => ?_⟩
  · rw [State.outputStream, hs, outputText]
  · rw [State.outputStream, State.outputStream, ht, outputText_append]
    simp [outputText, outputLine]

/-! ### Reading digits -/

theorem digitValue_eq_some {c : Char} {d : Nat} : digitValue c = some d ↔ IsDigit c ∧ c.toNat - 48 = d := by
  simp [digitValue, IsDigit]

theorem readDigits_of_digits {cs : List Char} (h : ∀ c ∈ cs, IsDigit c) (acc : Nat) :
    readDigits acc cs = some (cs.foldl (fun n c => n * 10 + (c.toNat - 48)) acc) := by
  induction cs generalizing acc with
  | nil => rfl
  | cons c cs ih =>
    rw [List.forall_mem_cons] at h
    rw [readDigits, digitValue_eq_some.2 ⟨h.1, rfl⟩]
    exact ih h.2 _

theorem readDigits_of_not_digit {cs : List Char} {c : Char} (hc : c ∈ cs) (h : ¬ IsDigit c) (acc : Nat) :
    readDigits acc cs = none := by
  induction cs generalizing acc with
  | nil => cases hc
  | cons b cs ih =>
    rw [readDigits]
    cases hd : digitValue b with
    | none => rfl
    | some d =>
      obtain ⟨hb, -⟩ := digitValue_eq_some.1 hd
      exact ih ((List.mem_cons.1 hc).resolve_left fun e => h (e ▸ hb)) _

theorem readMagnitude_of_digits {ds : List Char} (hne : ds ≠ []) (h : ∀ c ∈ ds, IsDigit c) :
    readMagnitude ds = some (digitsValue ds) := by
  cases ds with
  | nil => exact absurd rfl hne
  | cons c cs => exact readDigits_of_digits h 0

/-! ### The answer for digits and sign -/

theorem answerOfInt_toInt (v : Word) : answerOfInt v.toInt = .value v := by
  rw [answerOfInt, if_pos (toInt_mem_range v), wrap32, BitVec.ofInt_toInt]

/-- R133: no value outside the `i32` range is taken. -/
theorem answerOfInt_of_outside {z : Int} (h : z < -2147483648 ∨ 2147483647 < z) : answerOfInt z = .bad :=
  if_neg (by omega)

section AnswerOfDigits

variable {syn : LineSyntax} {negative : Bool} {ds : List Char}

theorem answerOfDigits_of_digits (hne : ds ≠ []) (h : ∀ c ∈ ds, IsDigit c) :
    answerOfDigits syn negative ds = if hasLeadingZero ds && !syn.leadingZeros then .bad
      else answerOfInt (if negative then -(digitsValue ds : Int) else (digitsValue ds : Int)) := by
  rw [answerOfDigits, readMagnitude_of_digits hne h]

/-- What is no digits is `Bad`: it is empty or has another character. -/
theorem answerOfDigits_of_not_digits (h : ds ≠ [] → ¬ ∀ c ∈ ds, IsDigit c) :
    answerOfDigits syn negative ds = .bad := by
  cases ds with
  | nil => rfl
  | cons c cs =>
    have hbad := h (List.cons_ne_nil c cs)
    push Not at hbad
    obtain ⟨b, hb, hbad⟩ := hbad
    rw [answerOfDigits, readMagnitude, readDigits_of_not_digit hb hbad]

theorem answerOfDigits_of_outside (h : ∀ c ∈ ds, IsDigit c)
    (hout : 2147483648 < digitsValue ds ∨ (negative = false ∧ 2147483647 < digitsValue ds)) :
    answerOfDigits syn negative ds = .bad := by
  have hne : ds ≠ [] := by
    rintro rfl
    simp [digitsValue] at hout
  rw [answerOfDigits_of_digits hne h]
  split
  · rfl
  · refine answerOfInt_of_outside ?_
    cases negative with
    | false => simp only [Bool.false_eq_true, if_false]; omega
    | true => simp only [if_true, Bool.true_eq_false, false_and, or_false] at hout ⊢; omega

theorem hasLeadingZero_of_canonical (h : CanonicalDigits ds) : hasLeadingZero ds = false := by
  obtain ⟨-, -, hhead⟩ := h
  unfold hasLeadingZero
  split
  · simp at hhead
  · rfl

/-- Canonical digits are read whatever the adapter says of leading zeros. -/
theorem answerOfDigits_of_canonical (h : CanonicalDigits ds) :
    answerOfDigits syn negative ds =
      answerOfInt (if negative then -(digitsValue ds : Int) else (digitsValue ds : Int)) := by
  have ⟨hne, hdigits, _⟩ := h
  rw [answerOfDigits_of_digits hne hdigits, hasLeadingZero_of_canonical h]
  rfl

end AnswerOfDigits

/-! ### What the adapter ignores -/

/-- The characters an adapter may ignore at the ends of a line (log 6). -/
def Ignorable (c : Char) : Prop := isBlank c = true ∨ c = '\r'

theorem exists_append_dropBlanks (l : List Char) :
    ∃ blanks, (∀ c ∈ blanks, Ignorable c) ∧ l = blanks ++ dropBlanks l := by
  induction l with
  | nil => exact ⟨[], by simp, rfl⟩
  | cons c cs ih =>
    rw [dropBlanks]
    split
    · next hc =>
      obtain ⟨blanks, hblanks, hcs⟩ := ih
      exact ⟨c :: blanks, List.forall_mem_cons.2 ⟨.inl hc, hblanks⟩, congrArg (c :: ·) hcs⟩
    · exact ⟨[], by simp, rfl⟩

theorem exists_reverse_dropBlanks_append (l : List Char) :
    ∃ blanks, (∀ c ∈ blanks, Ignorable c) ∧ l = (dropBlanks l.reverse).reverse ++ blanks := by
  obtain ⟨blanks, hblanks, hl⟩ := exists_append_dropBlanks l.reverse
  refine ⟨blanks.reverse, by simpa using hblanks, ?_⟩
  rw [← List.reverse_append, ← hl, List.reverse_reverse]

theorem exists_dropFinalReturn_append (l : List Char) :
    ∃ returns, (∀ c ∈ returns, Ignorable c) ∧ l = dropFinalReturn l ++ returns := by
  induction l with
  | nil => exact ⟨[], by simp, rfl⟩
  | cons c cs ih =>
    cases cs with
    | nil =>
      by_cases hc : c = '\r'
      · exact ⟨['\r'], by simp [Ignorable], by simp [dropFinalReturn, hc]⟩
      · exact ⟨[], by simp, by simp [dropFinalReturn, hc]⟩
    | cons d cs =>
      obtain ⟨returns, hreturns, hcs⟩ := ih
      exact ⟨returns, hreturns, congrArg (c :: ·) hcs⟩

/-- What an adapter ignores stands at the two ends of the line (R132 b). -/
theorem exists_append_strippedLine_append (syn : LineSyntax) (line : List Char) :
    ∃ before after, (∀ c ∈ before, Ignorable c) ∧ (∀ c ∈ after, Ignorable c) ∧
      line = before ++ strippedLine syn line ++ after := by
  obtain ⟨returns, hreturns, hline⟩ : ∃ returns, (∀ c ∈ returns, Ignorable c) ∧
      line = (if syn.carriageReturn then dropFinalReturn line else line) ++ returns := by
    split
    · exact exists_dropFinalReturn_append line
    · exact ⟨[], by simp⟩
  rw [strippedLine]
  generalize (if syn.carriageReturn then dropFinalReturn line else line) = l at hline ⊢
  subst hline
  split
  · obtain ⟨before, hbefore, hl⟩ := exists_append_dropBlanks l
    obtain ⟨after, hafter, hrest⟩ := exists_reverse_dropBlanks_append (dropBlanks l)
    refine ⟨before, after ++ returns, hbefore, List.forall_mem_append.2 ⟨hafter, hreturns⟩, ?_⟩
    conv_lhs => rw [hl, hrest]
    simp only [List.append_assoc]
  · exact ⟨[], returns, by simp, hreturns, rfl⟩

section StrippedLine

variable {syn : LineSyntax} {line : List Char}

/-- A character that no adapter may ignore stays in the line. -/
theorem mem_strippedLine {c : Char} (hc : c ∈ line) (h : ¬ Ignorable c) : c ∈ strippedLine syn line := by
  obtain ⟨before, after, hbefore, hafter, hline⟩ := exists_append_strippedLine_append syn line
  rw [hline, List.mem_append, List.mem_append] at hc
  exact (hc.resolve_right fun hc => h (hafter c hc)).resolve_left fun hc => h (hbefore c hc)

/-- A line with nothing to ignore is left as it is. -/
theorem strippedLine_eq_self (h : ∀ c ∈ line, ¬ Ignorable c) : strippedLine syn line = line := by
  obtain ⟨before, after, hbefore, hafter, hline⟩ := exists_append_strippedLine_append syn line
  have hb : before = [] := List.eq_nil_iff_forall_not_mem.2 fun c hc => h c (by rw [hline]; simp [hc]) (hbefore c hc)
  have ha : after = [] := List.eq_nil_iff_forall_not_mem.2 fun c hc => h c (by rw [hline]; simp [hc]) (hafter c hc)
  simpa [hb, ha] using hline.symm

theorem not_ignorable_of_isDigit {c : Char} (h : IsDigit c) : ¬ Ignorable c := by
  rintro (hc | rfl)
  · obtain rfl | rfl : c = ' ' ∨ c = '\t' := by simpa [isBlank] using hc
    all_goals simp [IsDigit] at h
  · simp [IsDigit] at h

theorem strippedLine_digits (syn : LineSyntax) {ds : List Char} (h : ∀ c ∈ ds, IsDigit c) :
    strippedLine syn ds = ds :=
  strippedLine_eq_self fun c hc => not_ignorable_of_isDigit (h c hc)

theorem strippedLine_signed (syn : LineSyntax) {ds : List Char} (h : ∀ c ∈ ds, IsDigit c) {sign : Char}
    (hsign : sign = '-' ∨ sign = '+') : strippedLine syn (sign :: ds) = sign :: ds := by
  refine strippedLine_eq_self (List.forall_mem_cons.2 ⟨?_, fun c hc => not_ignorable_of_isDigit (h c hc)⟩)
  rcases hsign with rfl | rfl <;> simp [Ignorable, isBlank]

end StrippedLine

/-! ### Lines -/

section ParseLine

variable {syn : LineSyntax} {line ds : List Char}

theorem parseLine_of_minus (h : strippedLine syn line = '-' :: ds) :
    parseLine syn line = answerOfDigits syn true ds := by
  rw [parseLine, h]
  rfl

theorem parseLine_of_plus (h : strippedLine syn line = '+' :: ds) :
    parseLine syn line = if syn.plusSign then answerOfDigits syn false ds else .bad := by
  rw [parseLine, h]
  rfl

theorem parseLine_of_digits (hd : ∀ c ∈ ds, IsDigit c) (h : strippedLine syn line = ds) :
    parseLine syn line = answerOfDigits syn false ds := by
  rw [parseLine, h]
  split
  · exact absurd (hd '-' (by simp)) not_isDigit_minus
  · exact absurd (hd '+' (by simp)) not_isDigit_plus
  · rfl

/-- R132 (b): a line that is no numeral is `Bad`. -/
theorem parseLine_of_not_numeral (h : ∀ ds, ds ≠ [] → (∀ c ∈ ds, IsDigit c) →
    strippedLine syn line ≠ ds ∧ strippedLine syn line ≠ '-' :: ds ∧ strippedLine syn line ≠ '+' :: ds) :
    parseLine syn line = .bad := by
  unfold parseLine
  split
  · next ds hs =>
    refine answerOfDigits_of_not_digits fun hne hd => ?_
    obtain ⟨-, hminus, -⟩ := h ds hne hd
    exact hminus hs
  · next ds hs =>
    split
    · refine answerOfDigits_of_not_digits fun hne hd => ?_
      obtain ⟨-, -, hplus⟩ := h ds hne hd
      exact hplus hs
    · rfl
  · refine answerOfDigits_of_not_digits fun hne hd => ?_
    obtain ⟨hunsigned, -⟩ := h _ hne hd
    exact hunsigned rfl

/-- R132 (b): a character that is no digit and no sign, and that no adapter may ignore, makes a line `Bad`. -/
theorem parseLine_of_other_char {c : Char} (hc : c ∈ line) (hdigit : ¬ IsDigit c) (hsign : c ≠ '-' ∧ c ≠ '+')
    (hignorable : ¬ Ignorable c) : parseLine syn line = .bad := by
  have hmem : c ∈ strippedLine syn line := mem_strippedLine hc hignorable
  refine parseLine_of_not_numeral fun ds _ hd => ?_
  have hds : c ∉ ds := fun hcd => hdigit (hd c hcd)
  refine ⟨fun hs => ?_, fun hs => ?_, fun hs => ?_⟩ <;> simp [hs, hds, hsign] at hmem

/-- R133: an unsigned numeral, or one with a plus sign, above the range is `Bad`. -/
theorem parseLine_of_above (hd : ∀ c ∈ ds, IsDigit c) (hvalue : 2147483647 < digitsValue ds)
    (hs : strippedLine syn line = ds ∨ strippedLine syn line = '+' :: ds) : parseLine syn line = .bad := by
  have hbad : answerOfDigits syn false ds = .bad := answerOfDigits_of_outside hd (.inr ⟨rfl, hvalue⟩)
  rcases hs with hs | hs
  · rw [parseLine_of_digits hd hs, hbad]
  · rw [parseLine_of_plus hs, hbad, ite_self]

/-- R133: a numeral with a minus sign below the range is `Bad`. -/
theorem parseLine_of_below (hd : ∀ c ∈ ds, IsDigit c) (hvalue : 2147483648 < digitsValue ds)
    (hs : strippedLine syn line = '-' :: ds) : parseLine syn line = .bad := by
  rw [parseLine_of_minus hs, answerOfDigits_of_outside hd (.inl hvalue)]

end ParseLine

/-- Settles O57: the numeral has nothing an adapter ignores, so its sign and its canonical digits are read, whatever the
adapter says of leading zeros. -/
theorem canonicalNumeralParses : Obligations.CanonicalNumeralParses := by
  intro syn v
  obtain ⟨ds, hds, hvalue, hnumeral⟩ := canonicalNumeral_spec v
  have ⟨_, hdigits, _⟩ := hds
  rw [hnumeral, ← answerOfInt_toInt v]
  split
  · next hneg =>
    rw [parseLine_of_minus (strippedLine_signed _ hdigits (.inl rfl)), answerOfDigits_of_canonical hds, if_pos rfl,
      hvalue]
    congr 1
    omega
  · next hneg =>
    rw [parseLine_of_digits hdigits (strippedLine_digits _ hdigits), answerOfDigits_of_canonical hds,
      if_neg Bool.false_ne_true, hvalue]
    congr 1
    omega

/-- Settles O58: each clause is one way for a line to be no numeral, or one out of range; a line of a sign and digits
alone has nothing an adapter ignores. -/
theorem malformedLinesAreBad : Obligations.MalformedLinesAreBad := by
  refine fun syn => ⟨fun _ => parseLine_of_not_numeral, ?_, fun line c hc hdigit hother => ?_, fun line ds hd => ?_⟩
  · exact parseLine_of_not_numeral fun ds hne _ => by simp [strippedLine_digits syn (ds := []) (by simp), hne.symm]
  · simp only [List.mem_cons, List.not_mem_nil, or_false, not_or] at hother
    obtain ⟨hminus, hplus, hspace, htab, hreturn⟩ := hother
    exact parseLine_of_other_char hc hdigit ⟨hminus, hplus⟩ (by simp [Ignorable, isBlank, hspace, htab, hreturn])
  · refine ⟨fun hvalue hline => parseLine_of_above hd hvalue ?_, fun hvalue => parseLine_of_above hd hvalue,
      fun hvalue hline => parseLine_of_below hd hvalue ?_⟩
    · rcases hline with rfl | rfl
      · exact .inl (strippedLine_digits syn hd)
      · exact .inr (strippedLine_signed syn hd (.inr rfl))
    · rcases hline with rfl | hs
      · exact strippedLine_signed syn hd (.inl rfl)
      · exact hs

end Sys2Proof.Machine
end

section
/-!
PROOFS. The jumps (43_jump.md): format F3 over its condition (R105, R107, R152), and the step at a word of that format
(R150, R151).
-/

namespace Sys2Proof.Machine

open Sys2Proof.Claims

/-! ### Format F3 -/

theorem resolveTwo_of_sources {s : State} {ms : Modes} {r1 r2 p1 p2 : Word} (h1 : Source s ms.m1 r1 p1)
    (h2 : Source s ms.m2 r2 p2) : resolveTwo s ms r1 r2 = some (p1, p2) :=
  resolveTwo_eq_some.2 ⟨resolve_eq_some_iff_source.2 h1, resolve_eq_some_iff_source.2 h2⟩

section F3

variable {s : State} {ms : Modes} {r1 r2 p1 p2 : Word}

/-- A source that does not resolve is `OutOfBounds` before the condition is looked at (R105). -/
theorem jumpWhen_of_unresolved (c : Word → Bool) (h : resolve s ms.m1 r1 = none ∨ resolve s ms.m2 r2 = none) :
    jumpWhen c ms r1 r2 s = .next (faulted s .outOfBounds) := by
  rw [jumpWhen, resolveTwo_eq_none.2 h]
  rfl

/-- With both sources resolved, the condition on the first decides: a fault or a jump by the sign of the target (R152),
or the advance by 3 (R107). -/
theorem jumpWhen_of_resolveTwo (taken : Word → Prop) [DecidablePred taken]
    (hp : resolveTwo s ms r1 r2 = some (p1, p2)) :
    (taken p1 → p2.toInt < 0 →
      jumpWhen (fun p => decide (taken p)) ms r1 r2 s = .next (faulted s .outOfBounds)) ∧
    (taken p1 → 0 ≤ p2.toInt → jumpWhen (fun p => decide (taken p)) ms r1 r2 s = .next { s with pc := p2 }) ∧
    (¬ taken p1 → jumpWhen (fun p => decide (taken p)) ms r1 r2 s = .next { s with pc := s.pc + 3#32 }) := by
  rw [jumpWhen, hp]
  refine ⟨fun ht hneg => ?_, fun ht hnonneg => ?_, fun hnt => ?_⟩
  · simp only [ht, hneg, decide_true, if_true]
    rfl
  · simp only [ht, Int.not_lt.2 hnonneg, decide_true, if_true, if_false]
    rfl
  · simp only [hnt, decide_false, Bool.false_eq_true, if_false]
    rfl

end F3

/-- Settles O38: `JT` is format F3 over "not zero". -/
theorem jtCompletes : Obligations.JtCompletes := by
  intro s ms r1 r2 p1 p2 h1 h2
  obtain ⟨-, htaken, hnot⟩ := jumpWhen_of_resolveTwo (fun p => p.toInt ≠ 0) (resolveTwo_of_sources h1 h2)
  exact ⟨htaken, fun hzero => hnot (not_not.2 hzero)⟩

/-- Settles O39: `JF` is format F3 over "zero". -/
theorem jfCompletes : Obligations.JfCompletes := by
  intro s ms r1 r2 p1 p2 h1 h2
  obtain ⟨-, hjump⟩ := jumpWhen_of_resolveTwo (fun p => p.toInt = 0) (resolveTwo_of_sources h1 h2)
  exact hjump

/-! ### The step at the word of a jump -/

section Jump

variable {i : Instr} {ms : Modes} {r1 r2 : Word} {c : Word → Bool}

theorem IsJump.modes (h : IsJump i ms r1 r2 c) : i.modes = ms := by
  cases h <;> rfl

theorem IsJump.params (h : IsJump i ms r1 r2 c) : i.params = [r1, r2] := by
  cases h <;> rfl

theorem IsJump.exec_eq (h : IsJump i ms r1 r2 c) (s : State) : exec i s = jumpWhen c ms r1 r2 s := by
  cases h <;> rfl

/-- The step at the word of a jump whose parameter words are in memory is format F3 (R70, R104, R106). -/
theorem step_of_jump_word {s : State} {w : Word} (hi : IsJump i ms r1 r2 c) (hat : AtWord s w) (hw : 0 ≤ w.toInt)
    (hop : w.toNat % 100 = i.opcodeNumber) (hmodes : HasModes w ms) (hr1 : Param s 1 r1) (hr2 : Param s 2 r2) :
    step s = jumpWhen c ms r1 r2 s := by
  rw [← hi.exec_eq]
  refine step_of_word_of_instr hat hw hop (by rwa [hi.modes]) ?_
  rw [hi.params]
  intro k hk
  match k, hk with
  | 0, _ => exact hr1
  | 1, _ => exact hr2

end Jump

/-- The rule of a jump that is taken when its first source meets `taken`. -/
theorem f3Rule_of_isJump {build : Modes → Word → Word → Instr} {n : Nat} {taken : Word → Prop}
    [DecidablePred taken] (hn : n ∈ opcodes) (hcells : cellsOf n = 3)
    (hnum : ∀ ms r1 r2, (build ms r1 r2).opcodeNumber = n)
    (hjump : ∀ ms r1 r2, IsJump (build ms r1 r2) ms r1 r2 (fun p => decide (taken p))) : F3Rule n taken := by
  rintro s w hat hw rfl
  refine ⟨step_of_badDigit hat hw hn, fun hgood hout => step_of_missing_cell hat hw hn hgood (by omega),
    fun hgood r1 r2 hr1 hr2 => ?_⟩
  obtain ⟨ms, hmodes⟩ := exists_hasModes hgood
  have hstep := step_of_jump_word (hjump ms r1 r2) hat hw (hnum ..).symm hmodes hr1 hr2
  obtain ⟨h1, h2, -⟩ := hmodes
  rw [hstep, sourceOf_eq_resolve (k := 2) h1, sourceOf_eq_resolve (k := 3) h2]
  exact ⟨jumpWhen_of_unresolved _, fun p1 p2 hp1 hp2 =>
    jumpWhen_of_resolveTwo taken (resolveTwo_eq_some.2 ⟨hp1, hp2⟩)⟩

/-- Settles O45: the rule of format F3 for `JT`, opcode 5. -/
theorem jtStepFollowsItsRule : Obligations.JtStepFollowsItsRule :=
  f3Rule_of_isJump (build := .jt) (by decide) rfl (fun _ _ _ => rfl) .jt

/-- Settles O46: the rule of format F3 for `JF`, opcode 6. -/
theorem jfStepFollowsItsRule : Obligations.JfStepFollowsItsRule :=
  f3Rule_of_isJump (build := .jf) (by decide) rfl (fun _ _ _ => rfl) .jf

end Sys2Proof.Machine
end

section
/-!
PROOFS. The comparisons (44_compare.md): the truth values the ALU answers (R162), and `LT` and `EQ` as format F4 over
them (R160, R161).
-/

namespace Sys2Proof.Machine

open Sys2Proof.Claims

/-! ### The truth values -/

/-- The truth value of a proposition is 1 where it holds and 0 where it fails (R162). -/
theorem truthWord_decide_cases (P : Prop) [Decidable P] :
    (P ∧ truthWord (decide P) = 1#32) ∨ (¬ P ∧ truthWord (decide P) = 0#32) := by
  by_cases h : P
  · exact .inl ⟨h, by simp [truthWord, h]⟩
  · exact .inr ⟨h, by simp [truthWord, h]⟩

/-- `LT` compares the exact signed integers (R160, R162). -/
theorem lessWord_cases (p1 p2 : Word) :
    (p1.toInt < p2.toInt ∧ lessWord p1 p2 = 1#32) ∨ (p2.toInt ≤ p1.toInt ∧ lessWord p1 p2 = 0#32) := by
  rw [← Int.not_lt]
  exact truthWord_decide_cases (p1.toInt < p2.toInt)

/-- `EQ` compares all 32 bits: words that read as the same integer are the same word (R161). -/
theorem equalWord_cases (p1 p2 : Word) :
    (p1 = p2 ∧ equalWord p1 p2 = 1#32) ∨ (p1 ≠ p2 ∧ equalWord p1 p2 = 0#32) := by
  rw [ne_eq, ← BitVec.toInt_inj]
  exact truthWord_decide_cases (p1.toInt = p2.toInt)

/-! ### `LT` and `EQ` -/

/-- Settles O34: `LT` is format F4 over the signed comparison. -/
theorem ltCompletesWithTruth : Obligations.LtCompletesWithTruth := by
  intro s ms r1 r2 r3 p1 p2 h1 h2 hr3
  obtain ⟨t, ht⟩ := storeResult_of_sources lessWord h1 h2 hr3
  exact ⟨_, t, lessWord_cases p1 p2, ht⟩

/-- Settles O35: `EQ` is format F4 over the comparison of all bits. -/
theorem eqCompletesWithTruth : Obligations.EqCompletesWithTruth := by
  intro s ms r1 r2 r3 p1 p2 h1 h2 hr3
  obtain ⟨t, ht⟩ := storeResult_of_sources equalWord h1 h2 hr3
  exact ⟨_, t, equalWord_cases p1 p2, ht⟩

/-- Settles O43: the rule of format F4 for `LT`, opcode 7. -/
theorem ltStepFollowsItsRule : Obligations.LtStepFollowsItsRule :=
  f4Rule_of_storeResult (build := .lt) (by decide) rfl (fun _ _ _ _ => rfl) .lt (fun _ _ _ _ _ => rfl)
    lessWord_cases

/-- Settles O44: the rule of format F4 for `EQ`, opcode 8. -/
theorem eqStepFollowsItsRule : Obligations.EqStepFollowsItsRule :=
  f4Rule_of_storeResult (build := .eq) (by decide) rfl (fun _ _ _ _ => rfl) .eq (fun _ _ _ _ _ => rfl)
    equalWord_cases

end Sys2Proof.Machine
end

section
/-!
PROOFS. The explicit halt (45_halt.md): what `HLT` answers, and the step at its word (R170).
-/

namespace Sys2Proof.Machine

open Sys2Proof.Claims

/-- Settles O40: the meaning of `HLT` advances `PC` by 1 and writes `RUN`, whatever the modes (R78, R170). -/
theorem hltCompletes : Obligations.HltCompletes :=
  fun _ _ => rfl

/-- The step at the word of an instruction without parameters needs no cell but that word, which may be the last of
memory (R70, R104, R170). -/
theorem step_of_no_param_word {s : State} {w : Word} {i : Instr} (hat : AtWord s w) (hw : 0 ≤ w.toInt)
    (hop : w.toNat % 100 = i.opcodeNumber) (hmodes : HasModes w i.modes) (hparams : i.params = []) :
    step s = exec i s := by
  refine step_of_word_of_instr hat hw hop hmodes ?_
  rw [hparams]
  exact fun _ hk => absurd hk (Nat.not_lt_zero _)

/-- Settles O49: a bad digit is the decoder's error, and at every other word of opcode 99 the step is `HLT`. -/
theorem hltStepFollowsItsRule : Obligations.HltStepFollowsItsRule := by
  intro s w hat hw hop
  have hknown : w.toNat % 100 ∈ opcodes := by rw [hop]; decide
  refine ⟨step_of_badDigit hat hw hknown, fun hgood => ?_⟩
  obtain ⟨ms, hmodes⟩ := exists_hasModes hgood
  have hstep : step s = exec (.hlt ms) s := step_of_no_param_word hat hw hop hmodes rfl
  exact hstep.trans (hltCompletes s ms)

end Sys2Proof.Machine
end

section
/-!
PROOFS. The exceptions (60_exceptions.md): which instruction raises which error and in what state it is taken (R183 to
R185, R188, R189), the errors of a fetch (R181 to R183), and the end of a run (R190).
-/

namespace Sys2Proof.Machine

open Sys2Proof.Claims

/-- Settles O13: every step that answers a next state begins in `RUNNING`. -/
theorem endedRunTakesNoStep : Obligations.EndedRunTakesNoStep := by
  intro s hended t h
  obtain ⟨hrun, -⟩ := step_cases h
  simp [hrun] at hended

/-! ### When an instruction is out of bounds -/

/-- The three situations of R183 that a fetched instruction can be in: a Position source outside memory, a destination
outside memory, a jump taken to a negative target. -/
def OutOfBoundsAt (s : State) (i : Instr) : Prop :=
  (∃ r, (Mode.position, r) ∈ sources i ∧ Outside s r.toInt) ∨ (∃ r, destOf i = some r ∧ Outside s r.toInt) ∨
    ∃ p2, TakenTo s i p2 ∧ p2.toInt < 0

section OutOfBoundsAt

variable {s : State} {i : Instr} {ms : Modes} {r1 r2 r3 : Word} {c : Word → Bool}

/-- A pair of sources fails to resolve exactly when one of them names a cell outside memory (R46, R47). -/
theorem resolveTwo_eq_none_iff_outside :
    resolveTwo s ms r1 r2 = none ↔
      ∃ r, (Mode.position, r) ∈ [(ms.m1, r1), (ms.m2, r2)] ∧ Outside s r.toInt := by
  rw [resolveTwo_eq_none, resolve_eq_none, resolve_eq_none]
  simp [or_and_right, exists_or, and_assoc, eq_comm]

/-- A jump is taken to its second source exactly when its condition holds on its first (R150, R151). -/
theorem IsJump.takenTo_iff (h : IsJump i ms r1 r2 c) {p2 : Word} :
    TakenTo s i p2 ↔ ∃ p1, resolveTwo s ms r1 r2 = some (p1, p2) ∧ c p1 = true := by
  refine ⟨?_, fun ⟨p1, hp, hc⟩ => h.takenTo hp hc⟩
  rintro ⟨ms', r1', r2', p1, h1, h2, ⟨rfl, ht⟩ | ⟨rfl, ht⟩⟩ <;> cases h
  · exact ⟨p1, resolveTwo_of_sources h1 h2, decide_eq_true ht⟩
  · exact ⟨p1, resolveTwo_of_sources h1 h2, decide_eq_true ht⟩

theorem IsF4.outOfBoundsAt_iff (h : IsF4 i ms r1 r2 r3) :
    OutOfBoundsAt s i ↔ resolveTwo s ms r1 r2 = none ∨ destination s r3 = none := by
  have hsources : sources i = [(ms.m1, r1), (ms.m2, r2)] := by cases h <;> rfl
  have hdest : destOf i = some r3 := by cases h <;> rfl
  have hnot (p2 : Word) : ¬ TakenTo s i p2 := by cases h <;> simp [TakenTo]
  simp [OutOfBoundsAt, hsources, hdest, hnot, resolveTwo_eq_none_iff_outside, destination_eq_none]

theorem IsJump.outOfBoundsAt_iff (h : IsJump i ms r1 r2 c) :
    OutOfBoundsAt s i ↔ resolveTwo s ms r1 r2 = none ∨
      ∃ p1 p2, resolveTwo s ms r1 r2 = some (p1, p2) ∧ c p1 = true ∧ p2.toInt < 0 := by
  have hsources : sources i = [(ms.m1, r1), (ms.m2, r2)] := by cases h <;> rfl
  have hdest : destOf i = none := by cases h <;> rfl
  rw [exists_comm]
  simp [OutOfBoundsAt, hsources, hdest, h.takenTo_iff, resolveTwo_eq_none_iff_outside, ← and_assoc]

theorem outOfBoundsAt_inp : OutOfBoundsAt s (.inp ms r1) ↔ destination s r1 = none := by
  simp [OutOfBoundsAt, sources, destOf, TakenTo, destination_eq_none]

theorem outOfBoundsAt_out : OutOfBoundsAt s (.out ms r1) ↔ resolve s ms.m1 r1 = none := by
  simp [OutOfBoundsAt, sources, destOf, TakenTo, resolve_eq_none, eq_comm (a := Mode.position)]

theorem not_outOfBoundsAt_hlt : ¬ OutOfBoundsAt s (.hlt ms) := by
  simp [OutOfBoundsAt, sources, destOf, TakenTo]

/-- An instruction in one of the situations faults: none of the other answers of a meaning is possible in them. -/
theorem exec_of_outOfBoundsAt (h : OutOfBoundsAt s i) : exec i s = raised s .outOfBounds := by
  rcases exec_result i s with ⟨t, he, hr⟩ | ⟨⟨ms, r1, k, rfl, hk, -⟩, -⟩
  · cases hr with
    | f4Fault | jumpFault | inFault | outFault => exact he
    | stored hi v hp hk => simp [hi.outOfBoundsAt_iff, hp, hk] at h
    | jumped hi hp hc ht =>
      rcases hi.outOfBoundsAt_iff.1 h with hnone | ⟨q1, q2, hq, -, hneg⟩
      · cases hp.symm.trans hnone
      · cases hp.symm.trans hq
        omega
    | fellThrough hi hp hc => simp [hi.outOfBoundsAt_iff, hp, hc] at h
    | inStored ms hk | inBad ms hk | inEnded ms hk => simp [outOfBoundsAt_inp, hk] at h
    | emitted ms hp | outRejected ms hp => simp [outOfBoundsAt_out, hp] at h
    | halted => exact absurd h not_outOfBoundsAt_hlt
  · simp [outOfBoundsAt_inp, hk] at h

end OutOfBoundsAt

/-! ### The errors an instruction raises -/

theorem not_outside_of_destination {s : State} {r : Word} {k : Nat} (h : destination s r = some k) :
    ¬ Outside s r.toInt := by
  rw [← destination_eq_none, h]
  exact nofun

/-- The sink rejects exactly when the next verdict listed is a rejection (R138; log 3). -/
theorem nextVerdict_eq_rejected {s : State} : nextVerdict s = .rejected ↔ s.verdicts.head? = some .rejected := by
  unfold nextVerdict
  cases s.verdicts <;> simp

/-- When the meaning of an instruction raises an error (R181 to R185): never a decode error, and a port error only when
its port says so. -/
def Raises (s : State) (i : Instr) : FatalError → Prop
  | .invalidOpcode => False
  | .invalidParameterMode => False
  | .outOfBounds => OutOfBoundsAt s i
  | .malformedInput => ∃ ms r1, i = .inp ms r1 ∧ ¬ Outside s r1.toInt ∧
      (s.input.head? = some .bad ∨ (s.input = [] ∧ s.inputEnded = true))
  | .outputWriteFailure => ∃ ms r1 p1, i = .out ms r1 ∧ Source s ms.m1 r1 p1 ∧ s.verdicts.head? = some .rejected

/-- The state an error is taken in: a port error has used up what its port answered (R184, R185, R189). -/
def State.afterPort (s : State) : FatalError → State
  | .malformedInput => { s with input := s.input.tail }
  | .outputWriteFailure => { s with verdicts := s.verdicts.tail }
  | _ => s

/-- The end of the stream uses up no answer. -/
theorem State.afterPort_malformedInput_of_empty {s : State} (h : s.input = []) : s.afterPort .malformedInput = s := by
  rw [State.afterPort, h, List.tail_nil, ← h]

/-- A meaning that faults has raised an error, and has done nothing else but use its port. -/
theorem ExecResult.raises_of_faulted {s t : State} {i : Instr} (h : ExecResult s i t) (hrun : s.run = .running)
    (hfault : t.run = .faulted) : ∃ e, Raises s i e ∧ t = (s.afterPort e).raise e := by
  cases h with
  | f4Fault hi hnone => exact ⟨.outOfBounds, hi.outOfBoundsAt_iff.2 hnone, rfl⟩
  | jumpFault hi hwhy => exact ⟨.outOfBounds, hi.outOfBoundsAt_iff.2 hwhy, rfl⟩
  | inFault ms hnone => exact ⟨.outOfBounds, outOfBoundsAt_inp.2 hnone, rfl⟩
  | outFault ms hnone => exact ⟨.outOfBounds, outOfBoundsAt_out.2 hnone, rfl⟩
  | inBad ms hk hinput =>
    have hin := not_outside_of_destination hk
    exact ⟨.malformedInput, ⟨ms, _, rfl, hin, .inl (by simp [hinput])⟩, by simp [State.afterPort, hinput]⟩
  | inEnded ms hk hinput hended =>
    have hin := not_outside_of_destination hk
    exact ⟨.malformedInput, ⟨ms, _, rfl, hin, .inr ⟨hinput, hended⟩⟩,
      by rw [State.afterPort_malformedInput_of_empty hinput]⟩
  | outRejected ms hp hv =>
    exact ⟨.outputWriteFailure,
      ⟨ms, _, _, rfl, resolve_eq_some_iff_source.1 hp, nextVerdict_eq_rejected.1 hv⟩, rfl⟩
  | stored | jumped | fellThrough | inStored | emitted | halted => simp [hrun] at hfault

/-- A meaning that raises an error takes it, in the state its port has left. -/
theorem exec_of_raises {s : State} {i : Instr} {e : FatalError} (h : Raises s i e) :
    exec i s = raised (s.afterPort e) e := by
  cases e with
  | invalidOpcode | invalidParameterMode => exact h.elim
  | outOfBounds => exact exec_of_outOfBoundsAt h
  | malformedInput =>
    obtain ⟨ms, r1, rfl, hin, hport⟩ := h
    obtain ⟨k, hk⟩ := exists_destination hin
    rcases hport with hbad | ⟨hinput, hended⟩
    · obtain ⟨rest, hinput⟩ := List.head?_eq_some_iff.1 hbad
      rw [State.afterPort, hinput]
      exact execIn_of_bad (ms := ms) hk hinput
    · rw [State.afterPort_malformedInput_of_empty hinput]
      exact execIn_of_ended (ms := ms) hk hinput hended
  | outputWriteFailure =>
    obtain ⟨ms, r1, p1, rfl, hp, hv⟩ := h
    exact execOut_of_rejected (resolve_eq_some_iff_source.2 hp) (nextVerdict_eq_rejected.2 hv)

/-! ### The errors of a fetch -/

/-- The decoder proper fails in two ways, each on its own words (R181, R182). -/
theorem decodeWord_eq_error {w : Word} {d : DecodeError} (h : decodeWord w = .error d) :
    (d = .invalidOpcode ∧ (w.toInt < 0 ∨ w.toNat % 100 ∉ opcodes)) ∨
    (d = .invalidParameterMode ∧ 0 ≤ w.toInt ∧ w.toNat % 100 ∈ opcodes ∧ BadDigit w) := by
  by_cases hinvalid : w.toInt < 0 ∨ w.toNat % 100 ∉ opcodes
  · cases (decodeWord_of_invalidOpcode hinvalid).symm.trans h
    exact .inl ⟨rfl, hinvalid⟩
  · simp only [not_or, Int.not_lt, not_not] at hinvalid
    obtain ⟨hw, hop⟩ := hinvalid
    by_cases hbad : BadDigit w
    · cases (decodeWord_of_badDigit hw hop hbad).symm.trans h
      exact .inr ⟨rfl, hw, hop, hbad⟩
    · obtain ⟨op, ms, hd⟩ := decodeWord_of_legal hw hop hbad
      cases hd.symm.trans h

section Fetch

variable {s : State} {e : FatalError}

/-- A fetch fails in three ways: the two failures of its word, and a missing parameter word (R103, R104). -/
theorem fetchInstr_error_cases (h : s.pc.toNat < s.mem.size.val) (hf : fetchInstr s = .error e) :
    (e = .invalidOpcode ∧
      ((s.mem.read s.pc.toNat).toInt < 0 ∨ (s.mem.read s.pc.toNat).toNat % 100 ∉ opcodes)) ∨
    (e = .invalidParameterMode ∧ 0 ≤ (s.mem.read s.pc.toNat).toInt ∧
      (s.mem.read s.pc.toNat).toNat % 100 ∈ opcodes ∧ BadDigit (s.mem.read s.pc.toNat)) ∨
    (e = .outOfBounds ∧ ∃ op ms, decodeWord (s.mem.read s.pc.toNat) = .ok (op, ms) ∧
      s.mem.size.val < s.pc.toNat + opcodeSize op) := by
  rcases fetchInstr_cases h with ⟨d, hd, hf'⟩ | ⟨op, ms, hd, hout, hf'⟩ | ⟨op, ms, ps, i, -, -, -, -, -, hf'⟩
  all_goals cases hf.symm.trans hf'
  · rcases decodeWord_eq_error hd with ⟨rfl, hw⟩ | ⟨rfl, hw⟩
    · exact .inl ⟨rfl, hw⟩
    · exact .inr (.inl ⟨rfl, hw⟩)
  · exact .inr (.inr ⟨rfl, op, ms, hd, hout⟩)

/-- The first situation of R183: a fetch is out of bounds exactly when a parameter word of a legal word is missing. -/
theorem fetchInstr_eq_outOfBounds (h : s.pc.toNat < s.mem.size.val) :
    fetchInstr s = .error .outOfBounds ↔ ∃ op ms, decodeWord (s.mem.read s.pc.toNat) = .ok (op, ms) ∧
      s.mem.size.val < s.pc.toNat + opcodeSize op := by
  refine ⟨fun hf => ?_, fun ⟨op, ms, hd, hout⟩ => fetchInstr_of_missing_cell h hd hout⟩
  rcases fetchInstr_error_cases h hf with ⟨he, -⟩ | ⟨he, -⟩ | ⟨-, hmissing⟩
  · cases he
  · cases he
  · exact hmissing

/-- A fetch raises no port error. -/
theorem ne_portError_of_fetchInstr_error (h : s.pc.toNat < s.mem.size.val) (hf : fetchInstr s = .error e) :
    e ≠ .malformedInput ∧ e ≠ .outputWriteFailure := by
  rcases fetchInstr_error_cases h hf with ⟨rfl, -⟩ | ⟨rfl, -⟩ | ⟨rfl, -⟩ <;> decide

end Fetch

/-! ### The errors of a step -/

section Step

variable {s t : State} {e : FatalError}

/-- When a step raises an error: the fetch of an existing word does, or the instruction fetched. -/
def StepRaises (s : State) (e : FatalError) : Prop :=
  s.pc.toNat < s.mem.size.val ∧ (fetchInstr s = .error e ∨ ∃ i, fetchInstr s = .ok i ∧ Raises s i e)

/-- A step that ends in a fault has raised an error, and has done nothing else but use its port (R188, R189). -/
theorem stepRaises_of_faulted (h : step s = .next t) (hfault : t.run = .faulted) :
    ∃ e, StepRaises s e ∧ t = (s.afterPort e).raise e := by
  obtain ⟨hrun, ⟨-, rfl⟩ | ⟨hlt, e, hf, rfl⟩ | ⟨hlt, i, hf, -, hexec⟩⟩ := step_cases h
  · simp at hfault
  · refine ⟨e, ⟨hlt, .inl hf⟩, ?_⟩
    rcases fetchInstr_error_cases hlt hf with ⟨rfl, -⟩ | ⟨rfl, -⟩ | ⟨rfl, -⟩ <;> rfl
  · obtain ⟨e, hraises, rfl⟩ := (exec_inv hexec).raises_of_faulted hrun hfault
    exact ⟨e, ⟨hlt, .inr ⟨i, hf, hraises⟩⟩, rfl⟩

/-- A running machine that raises an error has a step that ends with that error as its cause. -/
theorem exists_step_of_stepRaises (hrun : s.run = .running) (h : StepRaises s e) :
    ∃ t, step s = .next t ∧ t.run = .faulted ∧ t.cause = e.toCause := by
  obtain ⟨hlt, hf | ⟨i, hf, hraises⟩⟩ := h
  · exact ⟨_, step_of_fetch_error hrun hlt hf, rfl, rfl⟩
  · exact ⟨_, (step_of_fetch_ok hrun hlt hf).trans (exec_of_raises hraises), rfl, rfl⟩

/-- A running machine steps into a fault with the cause of an error exactly when it raises that error. -/
theorem exists_step_faulted_iff (hrun : s.run = .running) :
    (∃ t, step s = .next t ∧ t.run = .faulted ∧ t.cause = e.toCause) ↔ StepRaises s e := by
  refine ⟨fun ⟨t, h, hfault, hcause⟩ => ?_, exists_step_of_stepRaises hrun⟩
  obtain ⟨e', hraises, rfl⟩ := stepRaises_of_faulted h hfault
  exact FatalError.toCause_inj hcause ▸ hraises

/-- A port error comes from an instruction, since a fetch raises none. -/
theorem stepRaises_portError_iff (he : e = .malformedInput ∨ e = .outputWriteFailure) :
    StepRaises s e ↔ s.pc.toNat < s.mem.size.val ∧ ∃ i, fetchInstr s = .ok i ∧ Raises s i e :=
  and_congr_right fun hlt => or_iff_right fun hf => by
    obtain ⟨hin, hout⟩ := ne_portError_of_fetchInstr_error hlt hf
    exact he.elim hin hout

end Step

/-- Settles O22: the first situation is the fetch's, the other three are the instruction's. -/
theorem outOfBoundsExactlyFour : Obligations.OutOfBoundsExactlyFour := by
  intro s hrun
  refine (exists_step_faulted_iff (e := .outOfBounds) hrun).trans (and_congr_right fun hlt => ?_)
  exact or_congr (fetchInstr_eq_outOfBounds hlt) Iff.rfl

/-- Settles O23: a port error comes from an instruction, and `Raises` says from which. -/
theorem portErrorsOnlyByPortInstructions : Obligations.PortErrorsOnlyByPortInstructions := by
  intro s hrun
  constructor
  · refine (exists_step_faulted_iff (e := .malformedInput) hrun).trans ?_
    rw [stepRaises_portError_iff (.inl rfl)]
    exact and_congr_right fun _ => ⟨fun ⟨_, hf, ms, r1, hi, hwhy⟩ => ⟨ms, r1, hi ▸ hf, hwhy⟩,
      fun ⟨ms, r1, hf, hwhy⟩ => ⟨_, hf, ms, r1, rfl, hwhy⟩⟩
  · refine (exists_step_faulted_iff (e := .outputWriteFailure) hrun).trans ?_
    rw [stepRaises_portError_iff (.inr rfl)]
    exact and_congr_right fun _ => ⟨fun ⟨_, hf, ms, r1, p1, hi, hwhy⟩ => ⟨ms, r1, p1, hi ▸ hf, hwhy⟩,
      fun ⟨ms, r1, p1, hf, hwhy⟩ => ⟨_, hf, ms, r1, p1, rfl, hwhy⟩⟩

/-- Settles O21: the next state is the old one with its port used and the error taken, and the port errors are raised
only where the port has a bad line or a rejection next, or no answer to use up. -/
theorem faultsArePrecise : Obligations.FaultsArePrecise := by
  intro s t h hfault
  obtain ⟨e, hraises, rfl⟩ := stepRaises_of_faulted h hfault
  cases e with
  | invalidOpcode | invalidParameterMode | outOfBounds => exact ⟨rfl, rfl, rfl, rfl, nofun, .inl rfl, .inl rfl⟩
  | malformedInput =>
    obtain ⟨-, i, -, ms, r1, -, -, hbad | ⟨hinput, -⟩⟩ := (stepRaises_portError_iff (.inl rfl)).1 hraises
    · exact ⟨rfl, rfl, rfl, rfl, nofun, .inr ⟨(List.cons_head?_tail hbad).symm, rfl⟩, .inl rfl⟩
    · rw [State.afterPort_malformedInput_of_empty hinput]
      exact ⟨rfl, rfl, rfl, rfl, nofun, .inl rfl, .inl rfl⟩
  | outputWriteFailure =>
    obtain ⟨-, i, -, ms, r1, p1, -, -, hv⟩ := (stepRaises_portError_iff (.inr rfl)).1 hraises
    exact ⟨rfl, rfl, rfl, rfl, nofun, .inl rfl, .inr ⟨(List.cons_head?_tail hv).symm, rfl⟩⟩

/-! ### The decode errors -/

/-- A step into a fault with the cause of a decode error comes from the fetch: no instruction raises one. -/
theorem fetchInstr_of_step_faulted {s : State} {e : FatalError} (he : e = .invalidOpcode ∨ e = .invalidParameterMode)
    (hrun : s.run = .running) (h : step s = .next (faulted s e.toCause)) : fetchInstr s = .error e := by
  obtain ⟨-, hf | ⟨i, -, hraises⟩⟩ := (exists_step_faulted_iff hrun).1 ⟨_, h, rfl, rfl⟩
  · exact hf
  · rcases he with rfl | rfl <;> exact hraises.elim

/-- Settles O10: the words fault as the decoder says, and a step into a decode error comes from such a word. -/
theorem decodeErrorsAreTaken : Obligations.DecodeErrorsAreTaken := by
  intro s w hat
  obtain ⟨hrun, hlt, rfl⟩ := atWord_iff.1 hat
  refine ⟨⟨step_of_invalidOpcode hat, fun h => ?_⟩, ⟨fun ⟨hw, hop, hbad⟩ => step_of_badDigit hat hw hop hbad,
    fun h => ?_⟩⟩
  · have hf := fetchInstr_of_step_faulted (e := .invalidOpcode) (.inl rfl) hrun h
    simpa using fetchInstr_error_cases hlt hf
  · have hf := fetchInstr_of_step_faulted (e := .invalidParameterMode) (.inr rfl) hrun h
    simpa using fetchInstr_error_cases hlt hf

end Sys2Proof.Machine
end

section
/-!
PROOFS. The encoder against the decoder (30_encoding.md, sections 1 and 2): what is written from four fields reads back
as those fields (R71, R73), so encoding and decoding undo each other up to the digits not examined (R75).
-/

namespace Sys2Proof

open Sys2Proof.Machine Sys2Proof.Claims

/-! ### The word of four fields -/

section Word

variable {d : Digits}

/-- Fields that pass the decoder's checks each fit their place in the word (R71, R79, R80). -/
theorem Digits.lt_of_wellFormed (h : d.wellFormed = true) : d.opcode < 100 ∧ d.m1 < 2 ∧ d.m2 < 2 ∧ d.m3 < 2 := by
  simp only [Digits.wellFormed, Digits.opcodeKnown, Digits.modesLegal, Bool.and_eq_true, decide_eq_true_eq] at h
  obtain ⟨hop, ⟨h1, h2⟩, h3⟩ := h
  exact ⟨lt_hundred_of_mem_opcodes (List.contains_iff_mem.1 hop), h1, h2, h3⟩

/-- The word of fields that fit is their decimal number: 32 bits lose nothing of it. -/
theorem wordOfDigits_toNat (h : d.wellFormed = true) :
    (wordOfDigits d).toNat = d.m3 * 10000 + d.m2 * 1000 + d.m1 * 100 + d.opcode := by
  obtain ⟨hop, h1, h2, h3⟩ := Digits.lt_of_wellFormed h
  rw [wordOfDigits, BitVec.toNat_ofNat]
  omega

theorem wordOfDigits_toInt_nonneg (h : d.wellFormed = true) : 0 ≤ (wordOfDigits d).toInt := by
  obtain ⟨hop, h1, h2, h3⟩ := Digits.lt_of_wellFormed h
  have hword := wordOfDigits_toNat h
  rw [BitVec.toInt_eq_toNat_of_lt (by omega)]
  omega

/-- The fields written are the fields read. -/
theorem extractDigits_wordOfDigits (h : d.wellFormed = true) : extractDigits (wordOfDigits d).toNat = d := by
  obtain ⟨hop, h1, h2, h3⟩ := Digits.lt_of_wellFormed h
  rw [wordOfDigits_toNat h]
  obtain ⟨op, m1, m2, m3⟩ := d
  simp only [extractDigits, decimalDigit, Digits.mk.injEq] at hop h1 h2 h3 ⊢
  omega

/-- The fields read, written again, are the number without the digits not examined (R75). -/
theorem wordOfDigits_extractDigits (n : Nat) : wordOfDigits (extractDigits n) = BitVec.ofNat 32 (n % 100000) := by
  have hn : n / 10 ^ 4 % 10 * 10000 + n / 10 ^ 3 % 10 * 1000 + n / 10 ^ 2 % 10 * 100 + n % 100 = n % 100000 := by omega
  rw [← hn]
  rfl

end Word

/-! ### Round trips -/

/-- A word decodes to the opcode and modes of an instruction exactly when it is not negative and its fields are the
instruction's (R72, R73). -/
theorem decodeWord_eq_ok_iff_digits {w : Word} {i : Instr} {op : Opcode}
    (hop : opcodeOfNumber i.opcodeNumber = some op) :
    decodeWord w = .ok (op, i.modes) ↔ 0 ≤ w.toInt ∧ extractDigits w.toNat = i.digits := by
  have hnum : opcodeOfNumber (w.toNat % 100) = some op ↔ w.toNat % 100 = i.opcodeNumber :=
    ⟨fun h => opcodeOfNumber_inj h hop, fun h => h ▸ hop⟩
  rw [decodeWord_eq_ok, hnum]
  simp only [extractDigits, decimalDigit, Instr.digits, Digits.mk.injEq, Nat.reducePow]

/-- Settles O1: the word has the fields of the instruction, and its parameter words build it. -/
theorem decodeEncodeRoundTrip : Obligations.DecodeEncodeRoundTrip := by
  intro i rest hwf
  obtain ⟨op, hop, hbuild⟩ := exists_buildInstr_self i
  have hd : decodeWord (wordOfDigits i.digits) = .ok (op, i.modes) :=
    (decodeWord_eq_ok_iff_digits hop).2 ⟨wordOfDigits_toInt_nonneg hwf, extractDigits_wordOfDigits hwf⟩
  exact decode_cons_eq_ok.2 ⟨op, i.modes, hd, buildInstr_append hbuild rest⟩

/-- Settles O2: the fields of the instruction are those of the word, and its parameters are the cells after it. -/
theorem decodedCellsReencode : Obligations.DecodedCellsReencode := by
  intro w ps i hdec
  obtain ⟨op, ms, hd, hbuild⟩ := decode_cons_eq_ok.1 hdec
  obtain ⟨hop, rfl, hsize, hlen, hparams⟩ := buildInstr_eq_some hbuild
  obtain ⟨hw, hdigits⟩ := (decodeWord_eq_ok_iff_digits hop).1 hd
  refine ⟨hw, ?_, hlen⟩
  rw [encode, ← hdigits, wordOfDigits_extractDigits, hparams, hsize]

/-- Settles O8: the decoder runs on each of the words. -/
theorem specWordsDecode : Obligations.SpecWordsDecode := by
  unfold Obligations.SpecWordsDecode
  decide

end Sys2Proof
end

section
/-!
PROOFS. Reset and hazards (70_reset_and_hazards.md): what reset writes (R200), when a step exists (R212, R134), and
which step makes no progress (R212, R153).
-/

namespace Sys2Proof.Machine

open Sys2Proof.Claims

/-- Settles O53: reset, register by register. -/
theorem resetWritesThreeRegisters : Obligations.ResetWritesThreeRegisters :=
  fun s => ⟨s.applyReset_pc, s.applyReset_run, s.applyReset_cause, s.applyReset_mem, s.applyReset_input,
    s.applyReset_inputEnded, s.applyReset_output, s.applyReset_verdicts⟩

/-! ### When a step exists -/

/-- A running machine that has fetched an `IN` without an answer is waiting (R134). -/
theorem WaitsAt.waiting {s : State} {i : Instr} (h : WaitsAt s i) (hrun : s.run = .running)
    (hlt : s.pc.toNat < s.mem.size.val) (hf : fetchInstr s = .ok i) : s.Waiting := by
  obtain ⟨ms, r1, k, rfl, hk, hinput, hopen⟩ := h
  obtain ⟨hcell, hk⟩ := cellIndex_eq_some.1 hk
  exact ⟨hrun, hlt, hinput, hopen, ms, r1, hf, by omega, by omega⟩

/-- A running machine halts, takes the error of its fetch, or runs an instruction, which answers a next state unless it
waits. -/
theorem exists_step_or_waiting {s : State} (hrun : s.run = .running) : (∃ t, step s = .next t) ∨ s.Waiting := by
  by_cases hlt : s.pc.toNat < s.mem.size.val
  · cases hf : fetchInstr s with
    | error e => exact .inl ⟨_, step_of_fetch_error hrun hlt hf⟩
    | ok i =>
      rw [step_of_fetch_ok hrun hlt hf]
      rcases exec_result i s with ⟨t, ht, -⟩ | ⟨hwaits, -⟩
      · exact .inl ⟨t, ht⟩
      · exact .inr (hwaits.waiting hrun hlt hf)
  · exact .inl ⟨_, step_of_atEnd hrun (by omega)⟩

theorem step_of_waiting {s : State} (h : s.Waiting) : step s = .fault .awaitingInput := by
  obtain ⟨ms, r1, -, hr1, -, hstep⟩ := h.exists_execIn
  obtain ⟨-, -, hinput, hopen, -⟩ := h
  obtain ⟨k, hk⟩ := exists_destination hr1
  rw [hstep s rfl rfl rfl, execIn_of_waiting hk hinput hopen]

/-- Settles O14: the three clauses are proved once each. -/
theorem stepExistsUnlessWaitingOrEnded : Obligations.StepExistsUnlessWaitingOrEnded :=
  fun _ => ⟨fun hrun hwait => (exists_step_or_waiting hrun).resolve_right hwait, step_of_waiting, step_of_ended⟩

/-! ### Progress -/

/-- Settles O15: the implicit halt and a fault write `RUN`, and of the instructions that complete only a taken jump does
not add its size, which is not 0, to `PC`. -/
theorem onlySelfJumpStandsStill : Obligations.OnlySelfJumpStandsStill := by
  intro s h
  obtain ⟨hrun, -⟩ := step_cases h
  rcases step_pc_cases h with ⟨hend, -⟩ | ⟨-, hfault, -⟩ | ⟨-, -, i, hf, -, hmoved⟩
  · have hhalt : s.run = .halted := by
      rw [← State.halt_run s, ← Host.Outcome.next.inj (h.symm.trans (step_of_atEnd hrun hend))]
    cases hrun.symm.trans hhalt
  · cases hrun.symm.trans hfault
  · rcases advanced_or_taken_of_pcMoved hmoved with hadvanced | ⟨htaken, -⟩
    · have hsize : 0 < i.size := Nat.succ_pos _
      omega
    · exact ⟨i, hf, htaken⟩

end Sys2Proof.Machine
end
